-- ==== Sys2Proof/Word.lean ====
section
/-! DEFINITION. The word types of the robotbpunity RV32I core (spec/00_scope.md R7, R8, R9): every register, memory word,
pc value and intermediate result is a 32-bit bit vector; a register index is a 5-bit field (spec/10_state.md R23). -/

namespace Sys2Proof

/-- A 32-bit word: a register, a memory word, a pc value, an instruction (R7 XLEN, ILEN; R9). -/
abbrev Word := BitVec 32

/-- One byte of an image (spec/20_memory.md R57). -/
abbrev Byte := BitVec 8

/-- The index of a general register, x0 to x31: a 5-bit field, so no index lies outside the file (R23, R226). -/
abbrev RegIdx := BitVec 5

end Sys2Proof
end

