-- ==== Sys2Proof/Syntax.lean ====
section
/-! DEFINITION. The instructions of spec/opcode_table.json, one constructor a row, in the table's order. Every field of the
row's word that the opcode, funct3 and funct7 do not fix is an argument, the ones the core does not examine too (JALR's funct3
and immediate, FENCE's fields, the rd and rs1 of ECALL and EBREAK), so that an instruction stands for exactly one word.
Immediates are the RAW fields of spec/30_encoding.md R73 to R77 (not sign-extended, the B and J offsets in bytes with their
implicit bit 0); the meanings extend them, once (R79). -/

namespace Sys2Proof

inductive Instr where
  -- upper immediate (40_upper_immediate.md)
  | lui (rd : RegIdx) (imm : BitVec 20)
  | auipc (rd : RegIdx) (imm : BitVec 20)
  -- control transfer (41_control_transfer.md)
  | jal (rd : RegIdx) (imm : BitVec 21)
  | jalr (rd rs1 : RegIdx) (funct3 : BitVec 3) (imm : BitVec 12)
  | beq (rs1 rs2 : RegIdx) (imm : BitVec 13)
  | bne (rs1 rs2 : RegIdx) (imm : BitVec 13)
  | blt (rs1 rs2 : RegIdx) (imm : BitVec 13)
  | bge (rs1 rs2 : RegIdx) (imm : BitVec 13)
  | bltu (rs1 rs2 : RegIdx) (imm : BitVec 13)
  | bgeu (rs1 rs2 : RegIdx) (imm : BitVec 13)
  -- loads and stores (42_load_store.md)
  | lb (rd rs1 : RegIdx) (imm : BitVec 12)
  | lh (rd rs1 : RegIdx) (imm : BitVec 12)
  | lw (rd rs1 : RegIdx) (imm : BitVec 12)
  | lbu (rd rs1 : RegIdx) (imm : BitVec 12)
  | lhu (rd rs1 : RegIdx) (imm : BitVec 12)
  | sb (rs1 rs2 : RegIdx) (imm : BitVec 12)
  | sh (rs1 rs2 : RegIdx) (imm : BitVec 12)
  | sw (rs1 rs2 : RegIdx) (imm : BitVec 12)
  -- register-immediate ALU (43_alu_immediate.md)
  | addi (rd rs1 : RegIdx) (imm : BitVec 12)
  | slti (rd rs1 : RegIdx) (imm : BitVec 12)
  | sltiu (rd rs1 : RegIdx) (imm : BitVec 12)
  | xori (rd rs1 : RegIdx) (imm : BitVec 12)
  | ori (rd rs1 : RegIdx) (imm : BitVec 12)
  | andi (rd rs1 : RegIdx) (imm : BitVec 12)
  | slli (rd rs1 : RegIdx) (shamt : BitVec 5)
  | srli (rd rs1 : RegIdx) (shamt : BitVec 5)
  | srai (rd rs1 : RegIdx) (shamt : BitVec 5)
  -- register-register ALU (44_alu_register.md)
  | add (rd rs1 rs2 : RegIdx)
  | sub (rd rs1 rs2 : RegIdx)
  | sll (rd rs1 rs2 : RegIdx)
  | slt (rd rs1 rs2 : RegIdx)
  | sltu (rd rs1 rs2 : RegIdx)
  | xor (rd rs1 rs2 : RegIdx)
  | srl (rd rs1 rs2 : RegIdx)
  | sra (rd rs1 rs2 : RegIdx)
  | or (rd rs1 rs2 : RegIdx)
  | and (rd rs1 rs2 : RegIdx)
  -- FENCE, system and the Controller interface (45_system.md)
  | fence (rd rs1 : RegIdx) (funct3 : BitVec 3) (imm : BitVec 12)
  | ecall (rd rs1 : RegIdx)
  | ebreak (rd rs1 : RegIdx)
  | csrrw (rd rs1 : RegIdx) (csr : BitVec 12)
  | csrrs (rd rs1 : RegIdx) (csr : BitVec 12)
  | csrrc (rd rs1 : RegIdx) (csr : BitVec 12)
  | csrrwi (rd : RegIdx) (uimm : BitVec 5) (csr : BitVec 12)
  | csrrsi (rd : RegIdx) (uimm : BitVec 5) (csr : BitVec 12)
  | csrrci (rd : RegIdx) (uimm : BitVec 5) (csr : BitVec 12)
deriving DecidableEq, Repr

end Sys2Proof
end

