-- ==== Sys2Proof/WellFormed.lean ====
section
/-! DEFINITION. Which instructions some word of the encoding stands for. The field widths are in the types; what is left to
check is that a branch and a JAL offset have their "implicit LSB 0" (spec/30_encoding.md R75, R77). -/

namespace Sys2Proof

/-- Bit 0 of a B-type offset is 0: no bit of the word holds it (R75). -/
def branchOffsetOk (imm : BitVec 13) : Bool := !imm.getLsbD 0

/-- Bit 0 of a J-type offset is 0 (R77). -/
def jumpOffsetOk (imm : BitVec 21) : Bool := !imm.getLsbD 0

/-- An instruction that some word stands for: its offset, where it has one, is even. -/
def Instr.wf : Instr → Bool
  | .jal _ imm => jumpOffsetOk imm
  | .beq _ _ imm => branchOffsetOk imm
  | .bne _ _ imm => branchOffsetOk imm
  | .blt _ _ imm => branchOffsetOk imm
  | .bge _ _ imm => branchOffsetOk imm
  | .bltu _ _ imm => branchOffsetOk imm
  | .bgeu _ _ imm => branchOffsetOk imm
  | .lui _ _ | .auipc _ _ | .jalr _ _ _ _ => true
  | .lb _ _ _ | .lh _ _ _ | .lw _ _ _ | .lbu _ _ _ | .lhu _ _ _ => true
  | .sb _ _ _ | .sh _ _ _ | .sw _ _ _ => true
  | .addi _ _ _ | .slti _ _ _ | .sltiu _ _ _ | .xori _ _ _ | .ori _ _ _ | .andi _ _ _ => true
  | .slli _ _ _ | .srli _ _ _ | .srai _ _ _ => true
  | .add _ _ _ | .sub _ _ _ | .sll _ _ _ | .slt _ _ _ | .sltu _ _ _ => true
  | .xor _ _ _ | .srl _ _ _ | .sra _ _ _ | .or _ _ _ | .and _ _ _ => true
  | .fence _ _ _ _ | .ecall _ _ | .ebreak _ _ => true
  | .csrrw _ _ _ | .csrrs _ _ _ | .csrrc _ _ _ => true
  | .csrrwi _ _ _ | .csrrsi _ _ _ | .csrrci _ _ _ => true

end Sys2Proof
end

