-- ==== Sys2Proof/Decode.lean ====
section
/-! DEFINITION. The six field decoders and their re-encoders (spec/30_encoding.md R72 to R77, R91), the dispatch of R84 as a
total decoder that names every word the dispatch table does not list, and the encoder of a well-formed instruction. The byte
order of a word in an image is here too (spec/20_memory.md R57). -/

namespace Sys2Proof

/-! ## A word and its bytes (20_memory.md R57) -/

/-- The word made of the four bytes of an image at 4i, 4i+1, 4i+2, 4i+3: little-endian (R57). -/
def assembleWord (b0 b1 b2 b3 : Byte) : Word := b3 ++ b2 ++ b1 ++ b0

/-- Byte `k` (0 to 3) of a word as R57 lays it out: byte 0 holds bits 7:0. -/
def wordByte (w : Word) (k : Nat) : Byte := w.extractLsb' (8 * k) 8

/-! ## The fields of the six formats -/

/-- R-type (R72). -/
structure RFields where
  funct7 : BitVec 7
  rs2 : RegIdx
  rs1 : RegIdx
  funct3 : BitVec 3
  rd : RegIdx
  opcode : BitVec 7
deriving DecidableEq, Repr

/-- I-type (R73); `imm` is raw and unsigned. -/
structure IFields where
  imm : BitVec 12
  rs1 : RegIdx
  funct3 : BitVec 3
  rd : RegIdx
  opcode : BitVec 7
deriving DecidableEq, Repr

/-- S-type (R74). -/
structure SFields where
  imm : BitVec 12
  rs2 : RegIdx
  rs1 : RegIdx
  funct3 : BitVec 3
  opcode : BitVec 7
deriving DecidableEq, Repr

/-- B-type (R75); `imm` is the 13-bit byte offset, its bit 0 always 0. -/
structure BFields where
  imm : BitVec 13
  rs2 : RegIdx
  rs1 : RegIdx
  funct3 : BitVec 3
  opcode : BitVec 7
deriving DecidableEq, Repr

/-- U-type (R76). -/
structure UFields where
  imm : BitVec 20
  rd : RegIdx
  opcode : BitVec 7
deriving DecidableEq, Repr

/-- J-type (R77); `imm` is the 21-bit byte offset, its bit 0 always 0. -/
structure JFields where
  imm : BitVec 21
  rd : RegIdx
  opcode : BitVec 7
deriving DecidableEq, Repr

/-- The opcode, inst[6:0] (R71). -/
def opcodeOf (w : Word) : BitVec 7 := w.extractLsb' 0 7

/-- R72. -/
def decodeR (w : Word) : RFields where
  funct7 := w.extractLsb' 25 7
  rs2 := w.extractLsb' 20 5
  rs1 := w.extractLsb' 15 5
  funct3 := w.extractLsb' 12 3
  rd := w.extractLsb' 7 5
  opcode := opcodeOf w

/-- R73. -/
def decodeI (w : Word) : IFields where
  imm := w.extractLsb' 20 12
  rs1 := w.extractLsb' 15 5
  funct3 := w.extractLsb' 12 3
  rd := w.extractLsb' 7 5
  opcode := opcodeOf w

/-- R74, with the shift of 5 of spec/90_conflicts.md C1: imm[11:5] = inst[31:25], imm[4:0] = inst[11:7]. -/
def decodeS (w : Word) : SFields where
  imm := w.extractLsb' 25 7 ++ w.extractLsb' 7 5
  rs2 := w.extractLsb' 20 5
  rs1 := w.extractLsb' 15 5
  funct3 := w.extractLsb' 12 3
  opcode := opcodeOf w

/-- R75: imm[12] = inst[31], imm[11] = inst[7], imm[10:5] = inst[30:25], imm[4:1] = inst[11:8], imm[0] = 0. -/
def decodeB (w : Word) : BFields where
  imm := w.extractLsb' 31 1 ++ w.extractLsb' 7 1 ++ w.extractLsb' 25 6 ++ w.extractLsb' 8 4 ++ 0#1
  rs2 := w.extractLsb' 20 5
  rs1 := w.extractLsb' 15 5
  funct3 := w.extractLsb' 12 3
  opcode := opcodeOf w

/-- R76. -/
def decodeU (w : Word) : UFields where
  imm := w.extractLsb' 12 20
  rd := w.extractLsb' 7 5
  opcode := opcodeOf w

/-- R77: imm[20] = inst[31], imm[19:12] = inst[19:12], imm[11] = inst[20], imm[10:1] = inst[30:21], imm[0] = 0. -/
def decodeJ (w : Word) : JFields where
  imm := w.extractLsb' 31 1 ++ w.extractLsb' 12 8 ++ w.extractLsb' 20 1 ++ w.extractLsb' 21 10 ++ 0#1
  rd := w.extractLsb' 7 5
  opcode := opcodeOf w

/-! ## The re-encoders: the fields back at the bit positions of R72 to R77 (R91) -/

/-- The word whose R-type fields are `f`. -/
def encodeR (f : RFields) : Word := f.funct7 ++ f.rs2 ++ f.rs1 ++ f.funct3 ++ f.rd ++ f.opcode

/-- The word whose I-type fields are `f`. -/
def encodeI (f : IFields) : Word := f.imm ++ f.rs1 ++ f.funct3 ++ f.rd ++ f.opcode

/-- The word whose S-type fields are `f`. -/
def encodeS (f : SFields) : Word :=
  f.imm.extractLsb' 5 7 ++ f.rs2 ++ f.rs1 ++ f.funct3 ++ f.imm.extractLsb' 0 5 ++ f.opcode

/-- The word whose B-type fields are `f`; bit 0 of the offset has no place in it. -/
def encodeB (f : BFields) : Word :=
  f.imm.extractLsb' 12 1 ++ f.imm.extractLsb' 5 6 ++ f.rs2 ++ f.rs1 ++ f.funct3 ++ f.imm.extractLsb' 1 4 ++
    f.imm.extractLsb' 11 1 ++ f.opcode

/-- The word whose U-type fields are `f`. -/
def encodeU (f : UFields) : Word := f.imm ++ f.rd ++ f.opcode

/-- The word whose J-type fields are `f`; bit 0 of the offset has no place in it. -/
def encodeJ (f : JFields) : Word :=
  f.imm.extractLsb' 20 1 ++ f.imm.extractLsb' 1 10 ++ f.imm.extractLsb' 11 1 ++ f.imm.extractLsb' 12 8 ++ f.rd ++ f.opcode

/-! ## The eleven opcodes (R81) -/

abbrev opLui : BitVec 7 := 0b0110111
abbrev opAuipc : BitVec 7 := 0b0010111
abbrev opJal : BitVec 7 := 0b1101111
abbrev opJalr : BitVec 7 := 0b1100111
abbrev opBranch : BitVec 7 := 0b1100011
abbrev opLoad : BitVec 7 := 0b0000011
abbrev opStore : BitVec 7 := 0b0100011
abbrev opOpImm : BitVec 7 := 0b0010011
abbrev opOp : BitVec 7 := 0b0110011
abbrev opMiscMem : BitVec 7 := 0b0001111
abbrev opSystem : BitVec 7 := 0b1110011

/-! ## The decoder -/

/-- The words the dispatch table lists no instruction for, by the arm of R84 they fall under. Each has a meaning all the same
(R87: no encoding traps): Machine/Unrecognized.lean gives it. -/
inductive Unrecognized where
  /-- The opcode is none of the eleven (R85). -/
  | opcode
  /-- BRANCH with funct3 010 or 011 (R120). -/
  | branchSubOp
  /-- LOAD with funct3 011, 110 or 111 (R139). -/
  | loadSubOp
  /-- STORE with funct3 011 to 111 (R140). -/
  | storeSubOp
  /-- SYSTEM with funct3 100, or funct3 000 and imm12 neither 0x000 nor 0x001 (R194). -/
  | systemSubOp
  /-- OP with a (funct3, funct7) pair that is none of the ten of R82: it writes 0 to rd (R181). -/
  | opPair (rd : RegIdx)
  /-- OP-IMM with funct3 001 or 101 that is no SLLI, SRLI or SRAI; its meaning follows OPIMM_SHIFT_MODE (R157). -/
  | shiftImm (rd : RegIdx)
deriving DecidableEq, Repr

/-- BRANCH by funct3 (R82, R84, R120). -/
def decodeBranch (f : BFields) : Except Unrecognized Instr :=
  if f.funct3 = 0b000 then .ok (.beq f.rs1 f.rs2 f.imm)
  else if f.funct3 = 0b001 then .ok (.bne f.rs1 f.rs2 f.imm)
  else if f.funct3 = 0b100 then .ok (.blt f.rs1 f.rs2 f.imm)
  else if f.funct3 = 0b101 then .ok (.bge f.rs1 f.rs2 f.imm)
  else if f.funct3 = 0b110 then .ok (.bltu f.rs1 f.rs2 f.imm)
  else if f.funct3 = 0b111 then .ok (.bgeu f.rs1 f.rs2 f.imm)
  else .error .branchSubOp

/-- LOAD by funct3 (R82, R84, R139). -/
def decodeLoad (f : IFields) : Except Unrecognized Instr :=
  if f.funct3 = 0b000 then .ok (.lb f.rd f.rs1 f.imm)
  else if f.funct3 = 0b001 then .ok (.lh f.rd f.rs1 f.imm)
  else if f.funct3 = 0b010 then .ok (.lw f.rd f.rs1 f.imm)
  else if f.funct3 = 0b100 then .ok (.lbu f.rd f.rs1 f.imm)
  else if f.funct3 = 0b101 then .ok (.lhu f.rd f.rs1 f.imm)
  else .error .loadSubOp

/-- STORE by funct3 (R82, R84, R140). -/
def decodeStore (f : SFields) : Except Unrecognized Instr :=
  if f.funct3 = 0b000 then .ok (.sb f.rs1 f.rs2 f.imm)
  else if f.funct3 = 0b001 then .ok (.sh f.rs1 f.rs2 f.imm)
  else if f.funct3 = 0b010 then .ok (.sw f.rs1 f.rs2 f.imm)
  else .error .storeSubOp

/-- OP-IMM by funct3, and by imm12[11:5] for the shifts (R82, R84, R157). -/
def decodeOpImm (f : IFields) : Except Unrecognized Instr :=
  if f.funct3 = 0b000 then .ok (.addi f.rd f.rs1 f.imm)
  else if f.funct3 = 0b010 then .ok (.slti f.rd f.rs1 f.imm)
  else if f.funct3 = 0b011 then .ok (.sltiu f.rd f.rs1 f.imm)
  else if f.funct3 = 0b100 then .ok (.xori f.rd f.rs1 f.imm)
  else if f.funct3 = 0b110 then .ok (.ori f.rd f.rs1 f.imm)
  else if f.funct3 = 0b111 then .ok (.andi f.rd f.rs1 f.imm)
  else if f.funct3 = 0b001 ∧ f.imm.extractLsb' 5 7 = 0b0000000#7 then .ok (.slli f.rd f.rs1 (f.imm.extractLsb' 0 5))
  else if f.funct3 = 0b101 ∧ f.imm.extractLsb' 5 7 = 0b0000000#7 then .ok (.srli f.rd f.rs1 (f.imm.extractLsb' 0 5))
  else if f.funct3 = 0b101 ∧ f.imm.extractLsb' 5 7 = 0b0100000#7 then .ok (.srai f.rd f.rs1 (f.imm.extractLsb' 0 5))
  else .error (.shiftImm f.rd)

/-- OP by the pair (funct3, funct7) (R82, R84, R181). -/
def decodeOp (f : RFields) : Except Unrecognized Instr :=
  if f.funct7 = 0b0000000 then
    if f.funct3 = 0b000 then .ok (.add f.rd f.rs1 f.rs2)
    else if f.funct3 = 0b001 then .ok (.sll f.rd f.rs1 f.rs2)
    else if f.funct3 = 0b010 then .ok (.slt f.rd f.rs1 f.rs2)
    else if f.funct3 = 0b011 then .ok (.sltu f.rd f.rs1 f.rs2)
    else if f.funct3 = 0b100 then .ok (.xor f.rd f.rs1 f.rs2)
    else if f.funct3 = 0b101 then .ok (.srl f.rd f.rs1 f.rs2)
    else if f.funct3 = 0b110 then .ok (.or f.rd f.rs1 f.rs2)
    else .ok (.and f.rd f.rs1 f.rs2)
  else if f.funct7 = 0b0100000 then
    if f.funct3 = 0b000 then .ok (.sub f.rd f.rs1 f.rs2)
    else if f.funct3 = 0b101 then .ok (.sra f.rd f.rs1 f.rs2)
    else .error (.opPair f.rd)
  else .error (.opPair f.rd)

/-- SYSTEM by funct3, and by imm12 for funct3 000 (R191, R194); rs1 and rd are not examined for ECALL and EBREAK. -/
def decodeSystem (f : IFields) : Except Unrecognized Instr :=
  if f.funct3 = 0b000 then
    if f.imm = 0x000 then .ok (.ecall f.rd f.rs1)
    else if f.imm = 0x001 then .ok (.ebreak f.rd f.rs1)
    else .error .systemSubOp
  else if f.funct3 = 0b001 then .ok (.csrrw f.rd f.rs1 f.imm)
  else if f.funct3 = 0b010 then .ok (.csrrs f.rd f.rs1 f.imm)
  else if f.funct3 = 0b011 then .ok (.csrrc f.rd f.rs1 f.imm)
  else if f.funct3 = 0b101 then .ok (.csrrwi f.rd f.rs1 f.imm)
  else if f.funct3 = 0b110 then .ok (.csrrsi f.rd f.rs1 f.imm)
  else if f.funct3 = 0b111 then .ok (.csrrci f.rd f.rs1 f.imm)
  else .error .systemSubOp

/-- The dispatch of R84 on the 7-bit opcode: an instruction of the table, or the name of the arm for a word it does not list.
Total on all 2^32 words (R78, R87). -/
def decode (w : Word) : Except Unrecognized Instr :=
  if opcodeOf w = opLui then .ok (.lui (decodeU w).rd (decodeU w).imm)
  else if opcodeOf w = opAuipc then .ok (.auipc (decodeU w).rd (decodeU w).imm)
  else if opcodeOf w = opJal then .ok (.jal (decodeJ w).rd (decodeJ w).imm)
  else if opcodeOf w = opJalr then .ok (.jalr (decodeI w).rd (decodeI w).rs1 (decodeI w).funct3 (decodeI w).imm)
  else if opcodeOf w = opBranch then decodeBranch (decodeB w)
  else if opcodeOf w = opLoad then decodeLoad (decodeI w)
  else if opcodeOf w = opStore then decodeStore (decodeS w)
  else if opcodeOf w = opOpImm then decodeOpImm (decodeI w)
  else if opcodeOf w = opOp then decodeOp (decodeR w)
  else if opcodeOf w = opMiscMem then .ok (.fence (decodeI w).rd (decodeI w).rs1 (decodeI w).funct3 (decodeI w).imm)
  else if opcodeOf w = opSystem then decodeSystem (decodeI w)
  else .error .opcode

/-- The decoder on the four bytes of a word of memory, lowest address first (R57, R70: every instruction is one word). -/
def decodeBytes (b0 b1 b2 b3 : Byte) : Except Unrecognized Instr := decode (assembleWord b0 b1 b2 b3)

/-- The instruction the decoder reads from a word whose bits are `w`, the bits from `nbits` up being 0: the word is laid out in
bytes as R57 says and given to `decodeBytes`. -/
def decodeTableWord (nbits w : Nat) : Option Instr :=
  let v : Word := BitVec.ofNat 32 (w % 2 ^ nbits)
  match decodeBytes (wordByte v 0) (wordByte v 1) (wordByte v 2) (wordByte v 3) with
  | .ok i => some i
  | .error _ => none

/-! ## The encoder -/

/-- The word of an instruction (R72 to R77, R81, R82); for a well-formed one (`Instr.wf`) the decoder gives it back. -/
def encode : Instr → Word
  | .lui rd imm => encodeU ⟨imm, rd, opLui⟩
  | .auipc rd imm => encodeU ⟨imm, rd, opAuipc⟩
  | .jal rd imm => encodeJ ⟨imm, rd, opJal⟩
  | .jalr rd rs1 funct3 imm => encodeI ⟨imm, rs1, funct3, rd, opJalr⟩
  | .beq rs1 rs2 imm => encodeB ⟨imm, rs2, rs1, 0b000, opBranch⟩
  | .bne rs1 rs2 imm => encodeB ⟨imm, rs2, rs1, 0b001, opBranch⟩
  | .blt rs1 rs2 imm => encodeB ⟨imm, rs2, rs1, 0b100, opBranch⟩
  | .bge rs1 rs2 imm => encodeB ⟨imm, rs2, rs1, 0b101, opBranch⟩
  | .bltu rs1 rs2 imm => encodeB ⟨imm, rs2, rs1, 0b110, opBranch⟩
  | .bgeu rs1 rs2 imm => encodeB ⟨imm, rs2, rs1, 0b111, opBranch⟩
  | .lb rd rs1 imm => encodeI ⟨imm, rs1, 0b000, rd, opLoad⟩
  | .lh rd rs1 imm => encodeI ⟨imm, rs1, 0b001, rd, opLoad⟩
  | .lw rd rs1 imm => encodeI ⟨imm, rs1, 0b010, rd, opLoad⟩
  | .lbu rd rs1 imm => encodeI ⟨imm, rs1, 0b100, rd, opLoad⟩
  | .lhu rd rs1 imm => encodeI ⟨imm, rs1, 0b101, rd, opLoad⟩
  | .sb rs1 rs2 imm => encodeS ⟨imm, rs2, rs1, 0b000, opStore⟩
  | .sh rs1 rs2 imm => encodeS ⟨imm, rs2, rs1, 0b001, opStore⟩
  | .sw rs1 rs2 imm => encodeS ⟨imm, rs2, rs1, 0b010, opStore⟩
  | .addi rd rs1 imm => encodeI ⟨imm, rs1, 0b000, rd, opOpImm⟩
  | .slti rd rs1 imm => encodeI ⟨imm, rs1, 0b010, rd, opOpImm⟩
  | .sltiu rd rs1 imm => encodeI ⟨imm, rs1, 0b011, rd, opOpImm⟩
  | .xori rd rs1 imm => encodeI ⟨imm, rs1, 0b100, rd, opOpImm⟩
  | .ori rd rs1 imm => encodeI ⟨imm, rs1, 0b110, rd, opOpImm⟩
  | .andi rd rs1 imm => encodeI ⟨imm, rs1, 0b111, rd, opOpImm⟩
  | .slli rd rs1 shamt => encodeI ⟨0b0000000#7 ++ shamt, rs1, 0b001, rd, opOpImm⟩
  | .srli rd rs1 shamt => encodeI ⟨0b0000000#7 ++ shamt, rs1, 0b101, rd, opOpImm⟩
  | .srai rd rs1 shamt => encodeI ⟨0b0100000#7 ++ shamt, rs1, 0b101, rd, opOpImm⟩
  | .add rd rs1 rs2 => encodeR ⟨0b0000000, rs2, rs1, 0b000, rd, opOp⟩
  | .sub rd rs1 rs2 => encodeR ⟨0b0100000, rs2, rs1, 0b000, rd, opOp⟩
  | .sll rd rs1 rs2 => encodeR ⟨0b0000000, rs2, rs1, 0b001, rd, opOp⟩
  | .slt rd rs1 rs2 => encodeR ⟨0b0000000, rs2, rs1, 0b010, rd, opOp⟩
  | .sltu rd rs1 rs2 => encodeR ⟨0b0000000, rs2, rs1, 0b011, rd, opOp⟩
  | .xor rd rs1 rs2 => encodeR ⟨0b0000000, rs2, rs1, 0b100, rd, opOp⟩
  | .srl rd rs1 rs2 => encodeR ⟨0b0000000, rs2, rs1, 0b101, rd, opOp⟩
  | .sra rd rs1 rs2 => encodeR ⟨0b0100000, rs2, rs1, 0b101, rd, opOp⟩
  | .or rd rs1 rs2 => encodeR ⟨0b0000000, rs2, rs1, 0b110, rd, opOp⟩
  | .and rd rs1 rs2 => encodeR ⟨0b0000000, rs2, rs1, 0b111, rd, opOp⟩
  | .fence rd rs1 funct3 imm => encodeI ⟨imm, rs1, funct3, rd, opMiscMem⟩
  | .ecall rd rs1 => encodeI ⟨0x000, rs1, 0b000, rd, opSystem⟩
  | .ebreak rd rs1 => encodeI ⟨0x001, rs1, 0b000, rd, opSystem⟩
  | .csrrw rd rs1 csr => encodeI ⟨csr, rs1, 0b001, rd, opSystem⟩
  | .csrrs rd rs1 csr => encodeI ⟨csr, rs1, 0b010, rd, opSystem⟩
  | .csrrc rd rs1 csr => encodeI ⟨csr, rs1, 0b011, rd, opSystem⟩
  | .csrrwi rd uimm csr => encodeI ⟨csr, uimm, 0b101, rd, opSystem⟩
  | .csrrsi rd uimm csr => encodeI ⟨csr, uimm, 0b110, rd, opSystem⟩
  | .csrrci rd uimm csr => encodeI ⟨csr, uimm, 0b111, rd, opSystem⟩

end Sys2Proof
end

