-- ==== Sys2Proof/Config.lean ====
section
/-! DEFINITION. The parameters of a machine (spec/00_scope.md R7), the outward events (spec/10_state.md R41), and the one free
value: what the external Controller answers (spec/45_system.md R203). -/

namespace Sys2Proof

/-- OPIMM_SHIFT_MODE: what OP-IMM funct3 001 and 101 mean (R7; spec/43_alu_immediate.md R157). -/
inductive ShiftMode where
  | noop
  | zero
  | standard
deriving DecidableEq, Repr

/-- The parameters of a machine, fixed for its whole life (R7, R36). The machine holds them in its state, which no step changes
there, so that a statement about every state holds for every value of them. -/
structure Config where
  /-- MEM_WORDS, the number of 32-bit memory words, at least 1 (R50, D1). -/
  memWords : Nat
  /-- STRICT_MODE: unrecognized words also record a diagnostic event (R92, D16). -/
  strictMode : Bool
  /-- OPIMM_SHIFT_MODE (R157, D10). -/
  shiftMode : ShiftMode
  /-- LINK_BEFORE_READ: JALR and the register CSR instructions write rd before they read rs1 (R112, R195, D9). -/
  linkBeforeRead : Bool
deriving DecidableEq, Repr

/-- "a natural number ≥ 1" (R7). -/
def Config.wf (c : Config) : Bool := decide (1 ≤ c.memWords)

/-- The parameters of the machine after reset: R7's defaults, and MEM_WORDS = 64.
DESIGN CHOICE (log 1): R7 leaves MEM_WORDS open; 64 is the value of the conventions of spec/95_test_vectors.md. Unsafe for a
claim about `State.reset` alone; no statement over every state depends on it. -/
def Config.default : Config where
  memWords := 64
  strictMode := false
  shiftMode := .noop
  linkBeforeRead := true

/-- The outward events of R41, in the words of spec/95_test_vectors.md. -/
inductive Event where
  /-- ReadCSR(a) -> v. -/
  | readCSR (a v : Word)
  /-- WriteCSR(a, v). -/
  | writeCSR (a v : Word)
  /-- The warning of construction (R252). -/
  | imageTruncated
  /-- Recorded by the default arm in STRICT_MODE (R93). -/
  | unrecognizedInstruction (pc inst : Word)
  /-- Recorded by the arms marked so in R84, in STRICT_MODE (R93). -/
  | unrecognizedSubOp (pc inst : Word)
deriving DecidableEq, Repr

/-- A call of the Controller, the only events the Controller takes part in. -/
def Event.isCall : Event → Bool
  | .readCSR _ _ => true
  | .writeCSR _ _ => true
  | .imageTruncated => false
  | .unrecognizedInstruction _ _ => false
  | .unrecognizedSubOp _ _ => false

/-- FREE VALUE (log 3): what the Controller answers to ReadCSR. "In the model, CSRRead(a) returns a value drawn from the
CONTROLLER parameter, which may depend on the whole history of earlier calls and on the outside world; nothing is assumed of
it" (R203). `draw` numbers the calls (the outside world at that call), `history` is every earlier Controller call, `a` the
address. It has no body: nothing can be proved of its value. Safe. -/
opaque Config.controllerAnswer (draw : Nat) (history : List Event) (a : Word) : Word

end Sys2Proof
end

