-- ==== Sys2Proof/Machine/State.lean ====
section
/-! DEFINITION. Everything the spec gives the machine (spec/10_state.md R42), as plain data, and the machine after reset
(spec/70_reset_and_hazards.md R250 to R256). -/

namespace Sys2Proof.Machine

/-- Why the machine stops with a fault. -/
inductive Fault where
  /-- A fetch, LW or SW at a word index outside [0, MEM_WORDS) (spec/60_exceptions.md R224): `Machine.raise` puts it into `run`,
  and `step` answers it from then on, since a faulted machine takes no step (R225). Safe: the reference's behaviour is undefined
  there and the spec asks for fail-fast (D7). -/
  | outOfBounds (a : Word)
deriving DecidableEq, Repr

/-- Why a call of step has no meaning. -/
inductive Refusal where
  /-- No meaning has been written for the instruction (raised by `exec`'s arms only; no arm does). Safe. -/
  | notModelled (mnemonic : String)
  /-- ExecuteNextInstruction before StartAtPC (R227): "a caller contract violation". Raised by `step`. Safe. -/
  | stepWhileIdle
  /-- ExecuteNextInstruction after EBREAK (R227). Raised by `step`. Safe. -/
  | stepWhileHalted
deriving DecidableEq, Repr

/-- The lifecycle state (R31). -/
inductive RunState where
  | idle
  | running
  | halted
  | faulted (reason : Fault)
deriving DecidableEq, Repr

/-- Memory as the bytes of its image: word i is the bytes at 4i to 4i+3, little-endian (spec/20_memory.md R57). Addresses rise
strictly and no byte equal to `unlistedByte` is listed (`Memory.wf` in Machine/Ops.lean). -/
abbrev Memory := List Host.Cell

/-- What a byte no cell lists reads as: "0 for every other i" (R253, D3). -/
def unlistedByte : Byte := 0

/-- The one Controller the machine is constructed with (R35), as the machine sees it: the answers the outside world has fixed
for the next ReadCSR calls, oldest first, and how many calls have been made. The MODEL's own fields (log 3): with no answer
fixed, the answer is the free value `Config.controllerAnswer`. -/
structure Controller where
  answers : List Word
  draws : Nat
deriving DecidableEq, Repr

/-- The machine (R42). -/
structure State where
  /-- x1 to x31: register i at place i - 1. x0 is not stored (R21, R42). -/
  regs : Vector Word 31
  /-- The program counter, a word index (R28). -/
  pc : Word
  /-- The memory array (R50). -/
  mem : Memory
  /-- The lifecycle state (R31). -/
  run : RunState
  /-- The event log, oldest first (R41): an output only. -/
  log : List Event
  /-- The parameters (R7), which no step changes (R36). -/
  cfg : Config
  /-- The Controller port (R39). -/
  controller : Controller
deriving DecidableEq, Repr

/-- A machine with parameters `cfg`, Controller `c` and an empty image, as R253 to R256 say. -/
def State.initial (cfg : Config) (c : Controller) : State where
  regs := Vector.replicate 31 0
  pc := 0
  mem := []
  run := .idle
  log := []
  cfg := cfg
  controller := c

/-- The machine right after reset, which is construction (R250), from an empty image: registers 0 (R254), pc 0 and Idle (R255),
memory all 0 (R253), an empty log. The parameters are R7's defaults with MEM_WORDS = 64 (log 1); no answer of the Controller is
fixed (log 3). No program runs from here until the driver loads one and calls StartAtPC (R261; log 4). -/
def State.reset : State := State.initial Config.default ⟨[], 0⟩

end Sys2Proof.Machine
end

