-- ==== Sys2Proof/Machine/Ops.lean ====
section
/-! DEFINITION. The named operations over registers, memory, the event log and the Controller port, the end of an instruction,
and the one exception, OutOfBounds. The core has no other trap, saves nothing, and has no return from exception
(spec/60_exceptions.md R220, R230, R231): a faulted machine leaves its state only by the driver's StartAtPC (R225,
Machine/Driver.lean). -/

namespace Sys2Proof.Machine

/-- What an instruction and a step answer. -/
abbrev Result := Host.Outcome State Fault Refusal

/-! ## Registers (10_state.md R20 to R25) -/

/-- The place of a register other than x0. -/
theorem regPlace_lt (r : RegIdx) (h : r ≠ 0#5) : r.toNat - 1 < 31 := by
  have h0 : r.toNat ≠ 0 := fun e => h (BitVec.eq_of_toNat_eq (by simpa using e))
  have h1 : r.toNat < 32 := r.isLt
  omega

/-- x[i]: 0 for i = 0, whatever was written; else the register's value (R21). -/
def State.readReg (s : State) (r : RegIdx) : Word :=
  if h : r = 0#5 then 0#32 else s.regs[r.toNat - 1]'(regPlace_lt r h)

/-- x[i] <- v: discarded for i = 0 (R22). -/
def State.writeReg (s : State) (r : RegIdx) (v : Word) : State :=
  if h : r = 0#5 then s else { s with regs := s.regs.set (r.toNat - 1) v (regPlace_lt r h) }

/-! ## Memory (20_memory.md R50 to R57) -/

/-- The canonical form: addresses strictly rising, no byte listed that an unlisted address reads as. -/
abbrev Memory.wf (m : Memory) : Prop := m.Pairwise (fun c d => c.1 < d.1) ∧ ∀ c ∈ m, c.2 ≠ unlistedByte

/-- The byte at address `a`. -/
def memReadByte : Memory → Nat → Byte
  | [], _ => unlistedByte
  | (b, u) :: m, a => if a = b then u else memReadByte m a

/-- The memory with `v` at address `a`, in canonical form again. -/
def memWriteByte : Memory → Nat → Byte → Memory
  | [], a, v => if v = unlistedByte then [] else [(a, v)]
  | (b, u) :: m, a, v =>
    if a < b then (if v = unlistedByte then (b, u) :: m else (a, v) :: (b, u) :: m)
    else if a = b then (if v = unlistedByte then m else (a, v) :: m)
    else (b, u) :: memWriteByte m a v

/-- Memory word `i`: the bytes at 4i to 4i+3, little-endian (R57). -/
def memReadWord (m : Memory) (i : Nat) : Word :=
  assembleWord (memReadByte m (4 * i)) (memReadByte m (4 * i + 1)) (memReadByte m (4 * i + 2)) (memReadByte m (4 * i + 3))

/-- Memory with word `i` replaced, all 32 bits (R52). -/
def memWriteWord (m : Memory) (i : Nat) (v : Word) : Memory :=
  memWriteByte (memWriteByte (memWriteByte (memWriteByte m (4 * i) (wordByte v 0)) (4 * i + 1) (wordByte v 1))
    (4 * i + 2) (wordByte v 2)) (4 * i + 3) (wordByte v 3)

/-- Does the 32-bit index `a`, read as a signed number, name a memory word (R51, D27)? -/
def State.inRange (s : State) (a : Word) : Bool := decide (0 ≤ a.toInt ∧ a.toInt < (s.cfg.memWords : Int))

/-- MemRead(a, 4), or nothing where it raises OutOfBounds (R51). -/
def State.memRead (s : State) (a : Word) : Option Word :=
  if s.inRange a then some (memReadWord s.mem a.toInt.toNat) else none

/-- MemWrite(a, 4, v), or nothing where it raises OutOfBounds (R52). -/
def State.memWrite (s : State) (a v : Word) : Option State :=
  if s.inRange a then some { s with mem := memWriteWord s.mem a.toInt.toNat v } else none

/-- Instruction fetch: MemRead(pc, 4) (spec/30_encoding.md R83). -/
def State.fetch (s : State) : Option Word := s.memRead s.pc

/-! ## The end of an instruction, and the exception -/

/-- `pc <- t` (00_scope.md R12). -/
def State.setPc (s : State) (t : Word) : State := { s with pc := t }

/-- The pc advance at the end of every instruction that completes, modulo 2^32 (10_state.md R27, R29). -/
def State.advance (s : State) : State := s.setPc (s.pc + 1)

/-- An instruction that completes: the engine advances the pc, "including after branches and jumps that have already assigned
pc" (R27, R83). -/
def complete (s : State) : Result := .next s.advance

/-- `nop`: only the pc advance happens (00_scope.md R12). -/
def nop (s : State) : Result := complete s

/-- `x[rd] <- v` as an instruction's whole effect, then the advance. -/
def writeResult (rd : RegIdx) (v : Word) (s : State) : Result := complete (s.writeReg rd v)

/-- `raise`, taking the core's one exception (60_exceptions.md R224): the step stops at once, nothing is written, the pc keeps
the faulting instruction's word index, and run <- Faulted(reason). -/
def raise (reason : Fault) (s : State) : Result := .next { s with run := .faulted reason }

/-- `halt`: run <- Halted (00_scope.md R12, 45_system.md R193). -/
def State.halt (s : State) : State := { s with run := .halted }

/-! ## The event log (10_state.md R41; 30_encoding.md R92, R93) -/

/-- Append an event. -/
def State.record (s : State) (e : Event) : State := { s with log := s.log ++ [e] }

/-- `event E`: append the diagnostic event in STRICT_MODE, nothing otherwise (R93). -/
def State.event (s : State) (e : Event) : State := if s.cfg.strictMode then s.record e else s

/-! ## The Controller port (45_system.md R195, R202 to R205) -/

/-- What the Controller answers to ReadCSR(a) now: the next answer the outside world has fixed, else the free value, which may
depend on every earlier call and on the outside world (R203). -/
def State.csrAnswer (s : State) (a : Word) : Word :=
  match s.controller.answers with
  | v :: _ => v
  | [] => Config.controllerAnswer s.controller.draws (s.log.filter Event.isCall) a

/-- The call ReadCSR(a): the answer is used up and the call recorded (R205, R41). -/
def State.csrRead (s : State) (a : Word) : State :=
  State.record { s with controller := ⟨s.controller.answers.tail, s.controller.draws + 1⟩ } (.readCSR a (s.csrAnswer a))

/-- The call WriteCSR(a, v): its only effect on the machine is the record (R203, D14). -/
def State.csrWrite (s : State) (a v : Word) : State := s.record (.writeCSR a v)

/-- `x[rd] <- v` and the reading of a source operand, in the order LINK_BEFORE_READ gives (41_control_transfer.md R112,
45_system.md R195): the source's value, and the state with rd written. -/
def State.writeAndRead (s : State) (rd : RegIdx) (v : Word) (source : State → Word) : Word × State :=
  if s.cfg.linkBeforeRead then (source (s.writeReg rd v), s.writeReg rd v)
  else (source s, s.writeReg rd v)

end Sys2Proof.Machine
end

