-- ==== Sys2Proof/Machine/Operands.lean ====
section
/-! DEFINITION. The operand forms: how each instruction uses its immediate, "the sign extension applied exactly once"
(spec/00_scope.md R10, R11; spec/30_encoding.md R79), the one addressing mode (spec/42_load_store.md R130), the CSR operands
(R80, R202) and the shift amount (spec/44_alu_register.md R170). -/

namespace Sys2Proof.Machine

/-- sext_N (R10): bits N-1 to 31 all equal bit N-1. -/
def sext {n : Nat} (v : BitVec n) : Word := v.signExtend 32

/-- zext_N (R10): zeros above. -/
def zext {n : Nat} (v : BitVec n) : Word := v.setWidth 32

/-- tdiv(a, 4): s(a) divided by 4, rounded toward zero (R11, D8). -/
def tdiv4 (a : Word) : Word := BitVec.ofInt 32 (a.toInt.tdiv 4)

/-- q, the branch or JAL byte offset as words (R110, R111, R113). -/
def wordOffset {n : Nat} (imm : BitVec n) : Word := tdiv4 (sext imm)

/-- The U immediate at bits 31:12 (R79, R100, R101). -/
def upperImm (imm : BitVec 20) : Word := zext imm <<< 12

/-- The effective address of a load or store, a word index used directly (R130). -/
def State.effAddr (s : State) (rs1 : RegIdx) (imm : BitVec 12) : Word := s.readReg rs1 + sext imm

/-- The Controller address of a CSR instruction: the 12-bit field zero-extended, unchanged (R202, D13). -/
def csrAddr (csr : BitVec 12) : Word := zext csr

/-- The amount of a register shift: the low five bits (R170, D12). -/
def shiftAmount (v : Word) : Nat := (v.extractLsb' 0 5).toNat

/-- The link JAL and JALR write: pc + 4, with pc a word index (R111, R112). -/
def State.link (s : State) : Word := s.pc + 4

end Sys2Proof.Machine
end

