-- ==== Sys2Proof/Machine/Flags.lean ====
section
/-! DEFINITION. The core has no flags, condition codes or predicate registers (spec/10_state.md R33): no instruction computes
one. What stands in their place are the comparisons, which decide a branch or write 0 or 1 into a register (spec/00_scope.md R9;
R33; spec/44_alu_register.md R182). -/

namespace Sys2Proof.Machine

/-- a <s b: the signed readings compared (R9). -/
def ltSigned (a b : Word) : Bool := decide (a.toInt < b.toInt)

/-- a <u b: the unsigned readings compared (R9). -/
def ltUnsigned (a b : Word) : Bool := decide (a.toNat < b.toNat)

/-- `c ? 1 : 0` (R152, R153, R174, R175). -/
def boolWord (c : Bool) : Word := if c then 1 else 0

end Sys2Proof.Machine
end

