-- ==== Sys2Proof/Machine/AluImm.lean ====
section
/-! DEFINITION. The register-immediate ALU operations (spec/43_alu_immediate.md). -/

namespace Sys2Proof.Machine

/-- The common rule of OP-IMM (R150): rs1 with the sign-extended immediate, into rd. -/
def aluImm (f : Word → Word → Word) (rd rs1 : RegIdx) (imm : BitVec 12) (s : State) : Result :=
  writeResult rd (f (s.readReg rs1) (sext imm)) s

/-- ADDI (R151). -/
def execAddi (rd rs1 : RegIdx) (imm : BitVec 12) (s : State) : Result := aluImm (· + ·) rd rs1 imm s

/-- SLTI (R152). -/
def execSlti (rd rs1 : RegIdx) (imm : BitVec 12) (s : State) : Result :=
  aluImm (fun a b => boolWord (ltSigned a b)) rd rs1 imm s

/-- SLTIU (R153): the immediate sign-extended, then compared as unsigned. -/
def execSltiu (rd rs1 : RegIdx) (imm : BitVec 12) (s : State) : Result :=
  aluImm (fun a b => boolWord (ltUnsigned a b)) rd rs1 imm s

/-- XORI (R154). -/
def execXori (rd rs1 : RegIdx) (imm : BitVec 12) (s : State) : Result := aluImm (· ^^^ ·) rd rs1 imm s

/-- ORI (R155). -/
def execOri (rd rs1 : RegIdx) (imm : BitVec 12) (s : State) : Result := aluImm (· ||| ·) rd rs1 imm s

/-- ANDI (R156). -/
def execAndi (rd rs1 : RegIdx) (imm : BitVec 12) (s : State) : Result := aluImm (· &&& ·) rd rs1 imm s

/-- A valid SLLI, SRLI or SRAI word `inst`, in the three modes of OPIMM_SHIFT_MODE (R157): a no-op with the event, a write of 0
with the event, or the standard result. -/
def shiftByMode (inst : Word) (rd : RegIdx) (result : Word) (s : State) : Result :=
  match s.cfg.shiftMode with
  | .noop => nop (s.event (.unrecognizedSubOp s.pc inst))
  | .zero => writeResult rd 0 (s.event (.unrecognizedSubOp s.pc inst))
  | .standard => writeResult rd result s

/-- SLLI (R157, R158). -/
def execSlli (rd rs1 : RegIdx) (shamt : BitVec 5) (s : State) : Result :=
  shiftByMode (encode (.slli rd rs1 shamt)) rd (s.readReg rs1 <<< shamt.toNat) s

/-- SRLI (R157, R159). -/
def execSrli (rd rs1 : RegIdx) (shamt : BitVec 5) (s : State) : Result :=
  shiftByMode (encode (.srli rd rs1 shamt)) rd (s.readReg rs1 >>> shamt.toNat) s

/-- SRAI (R157, R160). -/
def execSrai (rd rs1 : RegIdx) (shamt : BitVec 5) (s : State) : Result :=
  shiftByMode (encode (.srai rd rs1 shamt)) rd ((s.readReg rs1).sshiftRight shamt.toNat) s

end Sys2Proof.Machine
end

