-- ==== Sys2Proof/Machine/AluReg.lean ====
section
/-! DEFINITION. The register-register ALU operations (spec/44_alu_register.md). -/

namespace Sys2Proof.Machine

/-- The common rule of OP (R170): both sources are read before rd is written. -/
def aluReg (f : Word → Word → Word) (rd rs1 rs2 : RegIdx) (s : State) : Result :=
  writeResult rd (f (s.readReg rs1) (s.readReg rs2)) s

/-- ADD (R171). -/
def execAdd (rd rs1 rs2 : RegIdx) (s : State) : Result := aluReg (· + ·) rd rs1 rs2 s

/-- SUB (R172). -/
def execSub (rd rs1 rs2 : RegIdx) (s : State) : Result := aluReg (· - ·) rd rs1 rs2 s

/-- SLL (R173). -/
def execSll (rd rs1 rs2 : RegIdx) (s : State) : Result := aluReg (fun a b => a <<< shiftAmount b) rd rs1 rs2 s

/-- SLT (R174). -/
def execSlt (rd rs1 rs2 : RegIdx) (s : State) : Result :=
  aluReg (fun a b => boolWord (ltSigned a b)) rd rs1 rs2 s

/-- SLTU (R175). -/
def execSltu (rd rs1 rs2 : RegIdx) (s : State) : Result :=
  aluReg (fun a b => boolWord (ltUnsigned a b)) rd rs1 rs2 s

/-- XOR (R176). -/
def execXor (rd rs1 rs2 : RegIdx) (s : State) : Result := aluReg (· ^^^ ·) rd rs1 rs2 s

/-- SRL (R177): logical. -/
def execSrl (rd rs1 rs2 : RegIdx) (s : State) : Result := aluReg (fun a b => a >>> shiftAmount b) rd rs1 rs2 s

/-- SRA (R178): arithmetic. -/
def execSra (rd rs1 rs2 : RegIdx) (s : State) : Result := aluReg (fun a b => a.sshiftRight (shiftAmount b)) rd rs1 rs2 s

/-- OR (R179). -/
def execOr (rd rs1 rs2 : RegIdx) (s : State) : Result := aluReg (· ||| ·) rd rs1 rs2 s

/-- AND (R180). -/
def execAnd (rd rs1 rs2 : RegIdx) (s : State) : Result := aluReg (· &&& ·) rd rs1 rs2 s

end Sys2Proof.Machine
end

