-- ==== Sys2Proof/Machine/Control.lean ====
section
/-! DEFINITION. JAL, JALR and the conditional branches (spec/41_control_transfer.md). JAL and taken branches subtract 1 unit for
the advance that follows, JALR does not (R110; spec/90_conflicts.md C3). No target is checked here: one outside memory faults at
the next fetch (R121). -/

namespace Sys2Proof.Machine

/-- JAL (R111). -/
def execJal (rd : RegIdx) (imm : BitVec 21) (s : State) : Result :=
  complete ((s.writeReg rd s.link).setPc (s.pc + wordOffset imm - 1))

/-- JALR (R112): the target is (x[rs1] + pc) with bit 0 cleared; funct3 and the immediate are not examined (D15), and
LINK_BEFORE_READ orders the link and the read of rs1. -/
def execJalr (rd rs1 : RegIdx) (_funct3 : BitVec 3) (_imm : BitVec 12) (s : State) : Result :=
  let (t, s') := s.writeAndRead rd s.link (fun u => u.readReg rs1)
  complete (s'.setPc ((t + s.pc) &&& 0xFFFFFFFE))

/-- The common branch rule (R113). -/
def branch (taken : Bool) (imm : BitVec 13) (s : State) : Result :=
  complete (if taken then s.setPc (s.pc + wordOffset imm - 1) else s)

/-- BEQ (R114). -/
def execBeq (rs1 rs2 : RegIdx) (imm : BitVec 13) (s : State) : Result :=
  branch (decide (s.readReg rs1 = s.readReg rs2)) imm s

/-- BNE (R115). -/
def execBne (rs1 rs2 : RegIdx) (imm : BitVec 13) (s : State) : Result :=
  branch (decide (s.readReg rs1 ≠ s.readReg rs2)) imm s

/-- BLT (R116). -/
def execBlt (rs1 rs2 : RegIdx) (imm : BitVec 13) (s : State) : Result :=
  branch (ltSigned (s.readReg rs1) (s.readReg rs2)) imm s

/-- BGE (R117). -/
def execBge (rs1 rs2 : RegIdx) (imm : BitVec 13) (s : State) : Result :=
  branch (!ltSigned (s.readReg rs1) (s.readReg rs2)) imm s

/-- BLTU (R118). -/
def execBltu (rs1 rs2 : RegIdx) (imm : BitVec 13) (s : State) : Result :=
  branch (ltUnsigned (s.readReg rs1) (s.readReg rs2)) imm s

/-- BGEU (R119). -/
def execBgeu (rs1 rs2 : RegIdx) (imm : BitVec 13) (s : State) : Result :=
  branch (!ltUnsigned (s.readReg rs1) (s.readReg rs2)) imm s

end Sys2Proof.Machine
end

