-- ==== Sys2Proof/Machine/LoadStore.lean ====
section
/-! DEFINITION. LW, SW and the unimplemented width variants (spec/42_load_store.md). -/

namespace Sys2Proof.Machine

/-- LW (R131): reads, and can fault, for rd = x0 too (R88). -/
def execLw (rd rs1 : RegIdx) (imm : BitVec 12) (s : State) : Result :=
  match s.memRead (s.effAddr rs1 imm) with
  | some v => writeResult rd v s
  | none => raise (.outOfBounds (s.effAddr rs1 imm)) s

/-- SW (R132). -/
def execSw (rs1 rs2 : RegIdx) (imm : BitVec 12) (s : State) : Result :=
  match s.memWrite (s.effAddr rs1 imm) (s.readReg rs2) with
  | some t => complete t
  | none => raise (.outOfBounds (s.effAddr rs1 imm)) s

/-- LB (R133): "recognized opcodes but intentionally unimplemented no-ops": no address, no check, no event (D22). -/
def execLb (_rd _rs1 : RegIdx) (_imm : BitVec 12) (s : State) : Result := nop s

/-- LH (R134). -/
def execLh (_rd _rs1 : RegIdx) (_imm : BitVec 12) (s : State) : Result := nop s

/-- LBU (R135). -/
def execLbu (_rd _rs1 : RegIdx) (_imm : BitVec 12) (s : State) : Result := nop s

/-- LHU (R136). -/
def execLhu (_rd _rs1 : RegIdx) (_imm : BitVec 12) (s : State) : Result := nop s

/-- SB (R137). -/
def execSb (_rs1 _rs2 : RegIdx) (_imm : BitVec 12) (s : State) : Result := nop s

/-- SH (R138). -/
def execSh (_rs1 _rs2 : RegIdx) (_imm : BitVec 12) (s : State) : Result := nop s

end Sys2Proof.Machine
end

