-- ==== Sys2Proof/Machine/System.lean ====
section
/-! DEFINITION. FENCE, ECALL, EBREAK and the six CSR instructions (spec/45_system.md). -/

namespace Sys2Proof.Machine

/-- FENCE (R190): "recognized, no-op"; no field but the opcode is examined. -/
def execFence (_rd _rs1 : RegIdx) (_funct3 : BitVec 3) (_imm : BitVec 12) (s : State) : Result := nop s

/-- ECALL (R192): "no-op (unimplemented trap)", and no event. -/
def execEcall (_rd _rs1 : RegIdx) (s : State) : Result := nop s

/-- EBREAK (R193): halt; the pc advances all the same. -/
def execEbreak (_rd _rs1 : RegIdx) (s : State) : Result := complete s.halt

/-- The common CSR rule (R195): ReadCSR once, rd <- old and the source read in the order of LINK_BEFORE_READ, WriteCSR of
F(old, source) once. -/
def csrOp (f : Word → Word → Word) (source : State → Word) (rd : RegIdx) (csr : BitVec 12) (s : State) : Result :=
  let old := s.csrAnswer (csrAddr csr)
  let (src, s') := (s.csrRead (csrAddr csr)).writeAndRead rd old source
  complete (s'.csrWrite (csrAddr csr) (f old src))

/-- "overwrite": F(old, src) = src (R196, R199). -/
def csrOverwrite (_old src : Word) : Word := src

/-- "set bits": F(old, src) = old | src (R197, R200). -/
def csrSetBits (old src : Word) : Word := old ||| src

/-- "clear bits": F(old, src) = old & ~src (R198, R201). -/
def csrClearBits (old src : Word) : Word := old &&& ~~~src

/-- CSRRW (R196). -/
def execCsrrw (rd rs1 : RegIdx) (csr : BitVec 12) (s : State) : Result :=
  csrOp csrOverwrite (fun u => u.readReg rs1) rd csr s

/-- CSRRS (R197): the write happens for rs1 = x0 too. -/
def execCsrrs (rd rs1 : RegIdx) (csr : BitVec 12) (s : State) : Result :=
  csrOp csrSetBits (fun u => u.readReg rs1) rd csr s

/-- CSRRC (R198). -/
def execCsrrc (rd rs1 : RegIdx) (csr : BitVec 12) (s : State) : Result :=
  csrOp csrClearBits (fun u => u.readReg rs1) rd csr s

/-- CSRRWI (R199): the source is the literal zext_5(uimm). -/
def execCsrrwi (rd : RegIdx) (uimm : BitVec 5) (csr : BitVec 12) (s : State) : Result :=
  csrOp csrOverwrite (fun _ => zext uimm) rd csr s

/-- CSRRSI (R200). -/
def execCsrrsi (rd : RegIdx) (uimm : BitVec 5) (csr : BitVec 12) (s : State) : Result :=
  csrOp csrSetBits (fun _ => zext uimm) rd csr s

/-- CSRRCI (R201). -/
def execCsrrci (rd : RegIdx) (uimm : BitVec 5) (csr : BitVec 12) (s : State) : Result :=
  csrOp csrClearBits (fun _ => zext uimm) rd csr s

end Sys2Proof.Machine
end

