-- ==== Sys2Proof/Machine/Upper.lean ====
section
/-! DEFINITION. LUI and AUIPC (spec/40_upper_immediate.md). -/

namespace Sys2Proof.Machine

/-- LUI (R100): the low 12 bits of rd's content are kept. -/
def execLui (rd : RegIdx) (imm : BitVec 20) (s : State) : Result :=
  writeResult rd (upperImm imm ||| (s.readReg rd &&& 0x00000FFF)) s

/-- AUIPC (R101): the word pc is added. -/
def execAuipc (rd : RegIdx) (imm : BitVec 20) (s : State) : Result :=
  writeResult rd (upperImm imm + s.pc) s

end Sys2Proof.Machine
end

