-- ==== Sys2Proof/Machine/Unrecognized.lean ====
section
/-! DEFINITION. What the words do that the dispatch table lists no instruction for: "No encoding traps" (spec/30_encoding.md
R84 to R87, R93). -/

namespace Sys2Proof.Machine

/-- A no-op that records UnrecognizedSubOp in STRICT_MODE (R86, R93). -/
def unknownSubOp (inst : Word) (s : State) : Result := nop (s.event (.unrecognizedSubOp s.pc inst))

/-- `x[rd] <- 0; event UnrecognizedSubOp` (R181; R157 in mode zero). -/
def unknownWritesZero (inst : Word) (rd : RegIdx) (s : State) : Result :=
  writeResult rd 0 (s.event (.unrecognizedSubOp s.pc inst))

/-- The meaning of the unrecognized word `inst` (R84): the default arm (R85), the sub-operations of BRANCH (R120), LOAD (R139),
STORE (R140) and SYSTEM (R194), an OP pair that is none of the ten (R181), an OP-IMM word of funct3 001 or 101 that is no
shift (R157). -/
def execUnrecognized (u : Unrecognized) (inst : Word) (s : State) : Result :=
  match u with
  | .opcode => nop (s.event (.unrecognizedInstruction s.pc inst))
  | .branchSubOp => unknownSubOp inst s
  | .loadSubOp => unknownSubOp inst s
  | .storeSubOp => unknownSubOp inst s
  | .systemSubOp => unknownSubOp inst s
  | .opPair rd => unknownWritesZero inst rd s
  | .shiftImm rd =>
    match s.cfg.shiftMode with
    | .noop => unknownSubOp inst s
    | .zero => unknownWritesZero inst rd s
    | .standard => unknownSubOp inst s

end Sys2Proof.Machine
end

