-- ==== Sys2Proof/Machine/Step.lean ====
section
/-! DEFINITION. One call of ExecuteNextInstruction (spec/30_encoding.md R83; spec/70_reset_and_hazards.md R259): the fetch, the
decoding, and the meaning of what was fetched. -/

namespace Sys2Proof.Machine

/-- Execute(inst) of R84, with the advance that ends it. -/
def executeWord (inst : Word) (s : State) : Host.Outcome State Fault Refusal :=
  match decode inst with
  | .ok i => exec i s
  | .error u => execUnrecognized u inst s

/-- ExecuteNextInstruction. When running: fetch at pc, which raises OutOfBounds(pc) outside memory, then execute (R83). "In any
other state the call has no meaning" (R259, R227): refused by name while Idle or Halted; a faulted machine takes no step and
answers its fault (R225). -/
def step (s : State) : Host.Outcome State Fault Refusal :=
  match s.run with
  | .idle => .refused .stepWhileIdle
  | .halted => .refused .stepWhileHalted
  | .faulted reason => .fault reason
  | .running =>
    match s.fetch with
    | none => raise (.outOfBounds s.pc) s
    | some inst => executeWord inst s

/-- `s` with the instruction whose bits are `w` (the bits from `nbits` up zero) stored where the next step fetches, and started:
the word at the pc is replaced and run is Running (log 4: it stands for the image and StartAtPC of R261). Where the pc is
outside memory, nothing can be fetched there, and the instruction stands at word 0 with the pc at 0. -/
def State.withFetchWord (s : State) (nbits w : Nat) : State :=
  let entry : Word := if s.inRange s.pc then s.pc else 0
  { s with pc := entry, run := .running, mem := memWriteWord s.mem entry.toInt.toNat (BitVec.ofNat 32 (w % 2 ^ nbits)) }

end Sys2Proof.Machine
end

