-- ==== Sys2Proof/Machine/Driver.lean ====
section
/-! DEFINITION. The driver port and construction (spec/10_state.md R38, R40; spec/70_reset_and_hazards.md R250 to R259). The
port's third call, ExecuteNextInstruction, is `step`. -/

namespace Sys2Proof.Machine

/-- Why construction fails. -/
inductive ConstructError where
  /-- The image's byte length is not a multiple of 4 (R251). Safe: no machine exists. -/
  | malformedImage
deriving DecidableEq, Repr

/-- The cells of an image whose first byte stands at address `a`. -/
def imageCells (a : Nat) : List Byte → Memory
  | [] => []
  | b :: bs => if b = unlistedByte then imageCells (a + 1) bs else (a, b) :: imageCells (a + 1) bs

/-- Construction from an image and one Controller, the core's only reset (R250): MalformedImage (R251) before all else; the first
MEM_WORDS words are kept and ImageTruncated recorded where the image holds more (R252); memory (R253), registers (R254), pc and
lifecycle (R255). -/
def construct (cfg : Config) (c : Controller) (image : List Byte) : Except ConstructError State :=
  if image.length % 4 ≠ 0 then .error .malformedImage
  else .ok { State.initial cfg c with
    mem := imageCells 0 (image.take (4 * cfg.memWords))
    log := if image.length / 4 > cfg.memWords then [.imageTruncated] else [] }

/-- StartAtPC(p) (R257): accepted in every state (D5), p not checked; registers, memory, log and Controller stay. -/
def startAtPC (p : Word) (s : State) : State := { s with pc := p, run := .running }

/-- IsRunning() (R32, R258). -/
def isRunning (s : State) : Bool := decide (s.run = .running)

end Sys2Proof.Machine
end

