-- ==== Sys2Proof/Safety.lean ====
section
/-! DEFINITION. What counts as a run that ended, the invariant of the machine, and the words claims about one instruction use:
what a register write leaves, and what stays as it was. -/

namespace Sys2Proof.Machine

/-- "A run has ended exactly when run = Halted" (spec/70_reset_and_hazards.md R263, D20). -/
def runEnded (s : State) : Bool := decide (s.run = .halted)

/-- "A run in Faulted has not ended well: it is a bad stop" (R263). -/
def badStop (s : State) : Bool :=
  match s.run with
  | .faulted _ => true
  | .idle => false
  | .running => false
  | .halted => false

/-- Every listed byte lies inside the MEM_WORDS words (spec/20_memory.md R50). -/
abbrev State.memInside (s : State) : Prop := ∀ c ∈ s.mem, c.1 < 4 * s.cfg.memWords

/-- A faulted machine's reason is an index that is out of range (spec/60_exceptions.md R224). -/
def State.faultTrue (s : State) : Bool :=
  match s.run with
  | .faulted (.outOfBounds a) => !s.inRange a
  | .idle => true
  | .running => true
  | .halted => true

/-- The invariant: memory in canonical form and inside the array, at least one memory word, a fault that is one. -/
abbrev State.Inv (s : State) : Prop :=
  Memory.wf s.mem ∧ s.memInside ∧ s.cfg.wf = true ∧ s.faultTrue = true

/-- No register of the file differs. -/
def SameRegs (s t : State) : Prop := ∀ r, t.readReg r = s.readReg r

/-- No byte of memory differs. -/
def SameMem (s t : State) : Prop := ∀ a, memReadByte t.mem a = memReadByte s.mem a

/-- Register rd holds `v` (x0 reads 0 whatever is written, spec/10_state.md R21, R22) and no other register differs. -/
def OnlyReg (s t : State) (rd : RegIdx) (v : Word) : Prop :=
  t.readReg rd = (if rd = 0#5 then 0#32 else v) ∧ ∀ r, r ≠ rd → t.readReg r = s.readReg r

/-- The lifecycle state, the event log, the parameters and the Controller port are as they were. -/
def SameRest (s t : State) : Prop :=
  t.run = s.run ∧ t.log = s.log ∧ t.cfg = s.cfg ∧ t.controller = s.controller

/-- The whole effect of an instruction that only writes `v` to rd: no memory, no lifecycle change, no event, and the advance. -/
def WritesOnly (s t : State) (rd : RegIdx) (v : Word) : Prop :=
  OnlyReg s t rd v ∧ t.pc = s.pc + 1 ∧ SameMem s t ∧ SameRest s t

/-- The whole effect of a nop: only the advance (spec/00_scope.md R12). -/
def OnlyAdvances (s t : State) : Prop :=
  SameRegs s t ∧ t.pc = s.pc + 1 ∧ SameMem s t ∧ SameRest s t

/-- The whole effect of an instruction that goes to word index `target`, writing no register. -/
def OnlyGoesTo (s t : State) (target : Word) : Prop :=
  SameRegs s t ∧ t.pc = target ∧ SameMem s t ∧ SameRest s t

/-- The lifecycle state, the parameters and the Controller port are as they were, and the log has the diagnostic event `e` more
in STRICT_MODE, nothing more otherwise (spec/30_encoding.md R93). -/
def Reports (s t : State) (e : Event) : Prop :=
  t.run = s.run ∧ t.cfg = s.cfg ∧ t.controller = s.controller ∧
    t.log = s.log ++ (if s.cfg.strictMode = true then [e] else [])

/-- The whole effect of a CSR instruction on address `a`: rd <- old, one ReadCSR that answered `old` and then one WriteCSR of
`new`, both recorded, and the advance (spec/45_system.md R195, R205). The last clause, what the call does to the model's own
fields `answers` and `draws`, is the model's choice and no rule of the spec (DESIGN CHOICE, log 3). -/
def CsrEffect (s t : State) (rd : RegIdx) (a old new : Word) : Prop :=
  OnlyReg s t rd old ∧ t.pc = s.pc + 1 ∧ SameMem s t ∧ t.run = s.run ∧ t.cfg = s.cfg ∧
    t.log = s.log ++ [.readCSR a old, .writeCSR a new] ∧
    t.controller = ⟨s.controller.answers.tail, s.controller.draws + 1⟩

/-- What a register operand rs1 gives an instruction that first writes `v` to rd, by LINK_BEFORE_READ (spec/41_control_transfer.md
R112; spec/45_system.md R195): `v` where rs1 is rd, is not x0, and is read after the write. -/
def State.operandAfterLink (s : State) (rd rs1 : RegIdx) (v : Word) : Word :=
  if s.cfg.linkBeforeRead = true ∧ rs1 = rd ∧ rd ≠ 0#5 then v else s.readReg rs1

/-- The register an instruction may write, if any (spec/10_state.md R25). -/
def destOf : Instr → Option RegIdx
  | .lui rd _ => some rd
  | .auipc rd _ => some rd
  | .jal rd _ => some rd
  | .jalr rd _ _ _ => some rd
  | .lw rd _ _ => some rd
  | .addi rd _ _ => some rd
  | .slti rd _ _ => some rd
  | .sltiu rd _ _ => some rd
  | .xori rd _ _ => some rd
  | .ori rd _ _ => some rd
  | .andi rd _ _ => some rd
  | .slli rd _ _ => some rd
  | .srli rd _ _ => some rd
  | .srai rd _ _ => some rd
  | .add rd _ _ => some rd
  | .sub rd _ _ => some rd
  | .sll rd _ _ => some rd
  | .slt rd _ _ => some rd
  | .sltu rd _ _ => some rd
  | .xor rd _ _ => some rd
  | .srl rd _ _ => some rd
  | .sra rd _ _ => some rd
  | .or rd _ _ => some rd
  | .and rd _ _ => some rd
  | .csrrw rd _ _ => some rd
  | .csrrs rd _ _ => some rd
  | .csrrc rd _ _ => some rd
  | .csrrwi rd _ _ => some rd
  | .csrrsi rd _ _ => some rd
  | .csrrci rd _ _ => some rd
  | .beq _ _ _ | .bne _ _ _ | .blt _ _ _ | .bge _ _ _ | .bltu _ _ _ | .bgeu _ _ _ => none
  | .lb _ _ _ | .lh _ _ _ | .lbu _ _ _ | .lhu _ _ _ | .sb _ _ _ | .sh _ _ _ | .sw _ _ _ => none
  | .fence _ _ _ _ | .ecall _ _ | .ebreak _ _ => none

/-- The instructions that assign the pc themselves: JAL, JALR and the branches (spec/41_control_transfer.md). -/
def isControlTransfer : Instr → Bool
  | .jal _ _ | .jalr _ _ _ _ => true
  | .beq _ _ _ | .bne _ _ _ | .blt _ _ _ | .bge _ _ _ | .bltu _ _ _ | .bgeu _ _ _ => true
  | .lui _ _ | .auipc _ _ => false
  | .lb _ _ _ | .lh _ _ _ | .lw _ _ _ | .lbu _ _ _ | .lhu _ _ _ => false
  | .sb _ _ _ | .sh _ _ _ | .sw _ _ _ => false
  | .addi _ _ _ | .slti _ _ _ | .sltiu _ _ _ | .xori _ _ _ | .ori _ _ _ | .andi _ _ _ => false
  | .slli _ _ _ | .srli _ _ _ | .srai _ _ _ => false
  | .add _ _ _ | .sub _ _ _ | .sll _ _ _ | .slt _ _ _ | .sltu _ _ _ => false
  | .xor _ _ _ | .srl _ _ _ | .sra _ _ _ | .or _ _ _ | .and _ _ _ => false
  | .fence _ _ _ _ | .ecall _ _ | .ebreak _ _ => false
  | .csrrw _ _ _ | .csrrs _ _ _ | .csrrc _ _ _ | .csrrwi _ _ _ | .csrrsi _ _ _ | .csrrci _ _ _ => false

/-- The six CSR instructions, the only ones that call the Controller (spec/45_system.md R205). -/
def isCsr : Instr → Bool
  | .csrrw _ _ _ | .csrrs _ _ _ | .csrrc _ _ _ | .csrrwi _ _ _ | .csrrsi _ _ _ | .csrrci _ _ _ => true
  | .jal _ _ | .jalr _ _ _ _ => false
  | .beq _ _ _ | .bne _ _ _ | .blt _ _ _ | .bge _ _ _ | .bltu _ _ _ | .bgeu _ _ _ => false
  | .lui _ _ | .auipc _ _ => false
  | .lb _ _ _ | .lh _ _ _ | .lw _ _ _ | .lbu _ _ _ | .lhu _ _ _ => false
  | .sb _ _ _ | .sh _ _ _ | .sw _ _ _ => false
  | .addi _ _ _ | .slti _ _ _ | .sltiu _ _ _ | .xori _ _ _ | .ori _ _ _ | .andi _ _ _ => false
  | .slli _ _ _ | .srli _ _ _ | .srai _ _ _ => false
  | .add _ _ _ | .sub _ _ _ | .sll _ _ _ | .slt _ _ _ | .sltu _ _ _ => false
  | .xor _ _ _ | .srl _ _ _ | .sra _ _ _ | .or _ _ _ | .and _ _ _ => false
  | .fence _ _ _ _ | .ecall _ _ | .ebreak _ _ => false

/-- The eleven opcodes of the dispatch table (spec/30_encoding.md R81). -/
def knownOpcodes : List (BitVec 7) :=
  [0b0110111, 0b0010111, 0b1101111, 0b1100111, 0b1100011, 0b0000011, 0b0100011, 0b0010011, 0b0110011, 0b0001111, 0b1110011]

/-- The ten (funct3, funct7) pairs of OP (spec/30_encoding.md R82). -/
def knownOpPairs : List (BitVec 3 × BitVec 7) :=
  [(0b000, 0b0000000), (0b000, 0b0100000), (0b001, 0b0000000), (0b010, 0b0000000), (0b011, 0b0000000),
    (0b100, 0b0000000), (0b101, 0b0000000), (0b101, 0b0100000), (0b110, 0b0000000), (0b111, 0b0000000)]

/-- The word the machine is about to execute: running, the pc in range, and `inst` the memory word there (R83). -/
abbrev State.About (s : State) (inst : Word) : Prop :=
  s.run = .running ∧ s.inRange s.pc = true ∧ memReadWord s.mem s.pc.toInt.toNat = inst

/-- The machine with STRICT_MODE off and the diagnostic events taken out of its log (spec/30_encoding.md R92). -/
def State.quiet (s : State) : State :=
  { s with
    cfg := { s.cfg with strictMode := false }
    log := s.log.filter fun e => e.isCall || decide (e = .imageTruncated) }

end Sys2Proof.Machine
end

