-- ==== Sys2Proof/Certificates/Slice0/Obligations.lean ====
section
/-! DEFINITION. The statements about the model, from the numbered rules of spec/. A result statement says that the instruction
ANSWERS a next state, the value it writes as numbers wherever the spec gives it as numbers, and everything it leaves as it was. -/

open Sys2Proof Sys2Proof.Machine

/-! ## Encoding -/

/-- Words written out from the encodings of spec/30_encoding.md R72 to R82, and what they stand for. -/
def Obligations.SampleWordsDecode : Prop :=
  decode 0x123450B7 = .ok (.lui 1 0x12345) ∧ decode 0xFF9FF06F = .ok (.jal 0 0x1FFFF8) ∧
  decode 0xFE209EE3 = .ok (.bne 1 2 0x1FFC) ∧ decode 0x00412183 = .ok (.lw 3 2 4) ∧
  decode 0xFE312FA3 = .ok (.sw 2 3 0xFFF) ∧ decode 0xFFF0A193 = .ok (.slti 3 1 0xFFF) ∧
  decode 0x4020D1B3 = .ok (.sra 3 1 2) ∧ decode 0x00100073 = .ok (.ebreak 0 0) ∧
  decode 0x001121F3 = .ok (.csrrs 3 2 1) ∧ decode 0x00000000 = .error .opcode

/-- Decoding an encoded well-formed instruction gives it back, every operand at every value. -/
def Obligations.DecodeOfEncode : Prop :=
  ∀ i : Instr, i.wf = true → decode (encode i) = .ok i

/-- A recognized word is the encoding of the instruction it decodes to, which is well-formed: no two words decode alike and no
bit of a word is dropped. -/
def Obligations.EncodeOfDecode : Prop :=
  ∀ (w : Word) (i : Instr), decode w = .ok i → encode i = w ∧ i.wf = true

/-- R91: the decoded fields of each of the six formats, placed back, are the whole word. -/
def Obligations.FieldDecodersRoundTrip : Prop :=
  ∀ w : Word, encodeR (decodeR w) = w ∧ encodeI (decodeI w) = w ∧ encodeS (decodeS w) = w ∧
    encodeB (decodeB w) = w ∧ encodeU (decodeU w) = w ∧ encodeJ (decodeJ w) = w

/-- Exactly which words each arm of R84 leaves unrecognized. The fields an arm examines are the spec's decision D15, the ten OP
pairs its decision D11. -/
def Obligations.UnrecognizedWordsExactly : Prop :=
  ∀ w : Word,
    (decode w = .error .opcode ↔ opcodeOf w ∉ knownOpcodes) ∧
    (decode w = .error .branchSubOp ↔ opcodeOf w = 0b1100011 ∧ (decodeB w).funct3 ∈ [0b010, 0b011]) ∧
    (decode w = .error .loadSubOp ↔ opcodeOf w = 0b0000011 ∧ (decodeI w).funct3 ∈ [0b011, 0b110, 0b111]) ∧
    (decode w = .error .storeSubOp ↔
      opcodeOf w = 0b0100011 ∧ (decodeS w).funct3 ∈ [0b011, 0b100, 0b101, 0b110, 0b111]) ∧
    (decode w = .error .systemSubOp ↔ opcodeOf w = 0b1110011 ∧
      ((decodeI w).funct3 = 0b100 ∨ (decodeI w).funct3 = 0b000 ∧ (decodeI w).imm ≠ 0x000 ∧ (decodeI w).imm ≠ 0x001)) ∧
    (∀ rd, decode w = .error (.opPair rd) ↔ opcodeOf w = 0b0110011 ∧ (decodeR w).rd = rd ∧
      ((decodeR w).funct3, (decodeR w).funct7) ∉ knownOpPairs) ∧
    (∀ rd, decode w = .error (.shiftImm rd) ↔ opcodeOf w = 0b0010011 ∧ (decodeI w).rd = rd ∧
      ((decodeI w).funct3 = 0b001 ∧ (decodeI w).imm.extractLsb' 5 7 ≠ 0b0000000 ∨
        (decodeI w).funct3 = 0b101 ∧ (decodeI w).imm.extractLsb' 5 7 ≠ 0b0000000 ∧
          (decodeI w).imm.extractLsb' 5 7 ≠ 0b0100000))

/-! ## The step -/

/-- R83: when the word at the pc decodes to an instruction, the step is that instruction's `exec`, the pc advance included. -/
def Obligations.StepRunsDecodedInstruction : Prop :=
  ∀ (s : State) (inst : Word) (i : Instr), s.About inst → decode inst = .ok i → step s = exec i s

/-- R85: an unrecognized opcode is a no-op whose pc still advances by 1; the zero word has one. -/
def Obligations.UnknownOpcodeIsNop : Prop :=
  opcodeOf 0x00000000 ∉ knownOpcodes ∧
  ∀ (s : State) (inst : Word), s.About inst → opcodeOf inst ∉ knownOpcodes →
    ∃ t, step s = .next t ∧ SameRegs s t ∧ t.pc = s.pc + 1 ∧ SameMem s t ∧ t.run = .running ∧
      t.controller = s.controller ∧ t.log.filter Event.isCall = s.log.filter Event.isCall

/-- An unrecognized opcode is recorded in STRICT_MODE, as UnrecognizedInstruction(pc, inst), and not otherwise (R93; the mode is
the spec's decision D16). -/
def Obligations.UnknownOpcodeRecorded : Prop :=
  ∀ (s : State) (inst : Word), s.About inst → opcodeOf inst ∉ knownOpcodes →
    ∃ t, step s = .next t ∧ Reports s t (.unrecognizedInstruction s.pc inst)

/-- R120, R139, R140, R194: an unrecognized sub-operation of BRANCH, LOAD, STORE and SYSTEM is a no-op that records
UnrecognizedSubOp in STRICT_MODE (the spec's decision D16). -/
def Obligations.UnknownSubOpsAreNops : Prop :=
  ∀ (s : State) (inst : Word), s.About inst →
    (opcodeOf inst = 0b1100011 ∧ (decodeB inst).funct3 ∈ [0b010, 0b011] ∨
      opcodeOf inst = 0b0000011 ∧ (decodeI inst).funct3 ∈ [0b011, 0b110, 0b111] ∨
      opcodeOf inst = 0b0100011 ∧ (decodeS inst).funct3 ∈ [0b011, 0b100, 0b101, 0b110, 0b111] ∨
      opcodeOf inst = 0b1110011 ∧ ((decodeI inst).funct3 = 0b100 ∨
        (decodeI inst).funct3 = 0b000 ∧ (decodeI inst).imm ≠ 0x000 ∧ (decodeI inst).imm ≠ 0x001)) →
    ∃ t, step s = .next t ∧ SameRegs s t ∧ t.pc = s.pc + 1 ∧ SameMem s t ∧ Reports s t (.unrecognizedSubOp s.pc inst)

/-- An OP word with a pair that is none of the ten writes 0 to rd (the spec's decision D11 reads "any unrecognized
(funct3,funct7) pairing yields 0" as covering every pair). -/
def Obligations.UnknownOpPairWritesZero : Prop :=
  ∀ (s : State) (inst : Word), s.About inst → opcodeOf inst = 0b0110011 →
    ((decodeR inst).funct3, (decodeR inst).funct7) ∉ knownOpPairs →
    ∃ t, step s = .next t ∧ OnlyReg s t (decodeR inst).rd 0 ∧ t.pc = s.pc + 1 ∧ SameMem s t ∧
      Reports s t (.unrecognizedSubOp s.pc inst)

/-- An OP-IMM word of funct3 001 or 101 that is no SLLI, SRLI or SRAI: 0 to rd in mode zero, a no-op in the modes noop and
standard, the event in all three (the spec's decision D10). -/
def Obligations.UnknownShiftWordByMode : Prop :=
  ∀ (s : State) (inst : Word), s.About inst → opcodeOf inst = 0b0010011 →
    ((decodeI inst).funct3 = 0b001 ∧ (decodeI inst).imm.extractLsb' 5 7 ≠ 0b0000000 ∨
      (decodeI inst).funct3 = 0b101 ∧ (decodeI inst).imm.extractLsb' 5 7 ≠ 0b0000000 ∧
        (decodeI inst).imm.extractLsb' 5 7 ≠ 0b0100000) →
    ∃ t, step s = .next t ∧
      (if s.cfg.shiftMode = .zero then OnlyReg s t (decodeI inst).rd 0 else SameRegs s t) ∧
      t.pc = s.pc + 1 ∧ SameMem s t ∧ Reports s t (.unrecognizedSubOp s.pc inst)

/-- A fetch outside memory takes OutOfBounds(pc): the pc stays, nothing else changes (the spec's decision D7, with indices read
as signed, D27). -/
def Obligations.FetchOutsideMemoryFaults : Prop :=
  ∀ s : State, s.run = .running → ¬ (0 ≤ s.pc.toInt ∧ s.pc.toInt < (s.cfg.memWords : Int)) →
    step s = .next { s with run := .faulted (.outOfBounds s.pc) }

/-- ExecuteNextInstruction while not Running makes no move (the spec's decision D6): refused by name while Idle or Halted, the
standing fault while Faulted. Which of refusal and fault it is is the model's choice, log 2. -/
def Obligations.NoStepUnlessRunning : Prop :=
  ∀ s : State,
    (s.run = .idle → step s = .refused .stepWhileIdle) ∧
    (s.run = .halted → step s = .refused .stepWhileHalted) ∧
    (∀ r, s.run = .faulted r → step s = .fault r)

/-- A running machine always makes its move, whatever the word at its pc: no encoding traps and none is refused (R87, R220). It
runs on, or has halted, or has taken OutOfBounds. -/
def Obligations.RunningAlwaysSteps : Prop :=
  ∀ s : State, s.run = .running →
    ∃ t, step s = .next t ∧ (t.run = .running ∨ t.run = .halted ∨ ∃ a, t.run = .faulted (.outOfBounds a))

/-! ## Upper immediate -/

/-- R100: bits 31:12 are the immediate, bits 11:0 stay as rd had them (rd read as the content of the register, D18). -/
def Obligations.LuiKeepsLowBits : Prop :=
  ∀ (rd : RegIdx) (imm : BitVec 20) (s : State),
    ∃ t, exec (.lui rd imm) s = .next t ∧ WritesOnly s t rd (imm ++ (s.readReg rd).extractLsb' 0 12)

/-- R101: the immediate times 4096 plus the word pc, modulo 2^32. -/
def Obligations.AuipcAddsWordPc : Prop :=
  ∀ (rd : RegIdx) (imm : BitVec 20) (s : State),
    ∃ t, exec (.auipc rd imm) s = .next t ∧ WritesOnly s t rd (BitVec.ofNat 32 (imm.toNat * 4096 + s.pc.toNat))

/-! ## Control transfer -/

/-- R111: rd gets pc + 4 and the final pc is pc + q, q the byte offset divided by 4 toward zero (the spec's decision D8). -/
def Obligations.JalLinksAndJumps : Prop :=
  ∀ (rd : RegIdx) (imm : BitVec 21) (s : State),
    ∃ t, exec (.jal rd imm) s = .next t ∧ OnlyReg s t rd (s.pc + 4) ∧
      t.pc = s.pc + BitVec.ofInt 32 (imm.toInt.tdiv 4) ∧ SameMem s t ∧ SameRest s t

/-- R112: rd gets pc + 4; the final pc is x[rs1] + pc with bit 0 cleared, plus 1; with rd = rs1 and LINK_BEFORE_READ the link is
what is added (the spec's decision D9), and neither funct3 nor the immediate matters (D15). -/
def Obligations.JalrLinksAndJumps : Prop :=
  ∀ (rd rs1 : RegIdx) (funct3 : BitVec 3) (imm : BitVec 12) (s : State),
    ∃ t, exec (.jalr rd rs1 funct3 imm) s = .next t ∧ OnlyReg s t rd (s.pc + 4) ∧
      t.pc = BitVec.ofNat 32 (2 * ((s.operandAfterLink rd rs1 (s.pc + 4) + s.pc).toNat / 2) + 1) ∧
      SameMem s t ∧ SameRest s t

/-- R113 to R119: each branch goes to pc + q when its comparison holds and to pc + 1 when not, q the byte offset divided by 4
toward zero (the spec's decision D8), and writes nothing. -/
def Obligations.BranchesCompareAndJump : Prop :=
  ∀ (rs1 rs2 : RegIdx) (imm : BitVec 13) (s : State),
    let a := s.readReg rs1
    let b := s.readReg rs2
    let target := s.pc + BitVec.ofInt 32 (imm.toInt.tdiv 4)
    (∃ t, exec (.beq rs1 rs2 imm) s = .next t ∧ OnlyGoesTo s t (if a = b then target else s.pc + 1)) ∧
    (∃ t, exec (.bne rs1 rs2 imm) s = .next t ∧ OnlyGoesTo s t (if a = b then s.pc + 1 else target)) ∧
    (∃ t, exec (.blt rs1 rs2 imm) s = .next t ∧ OnlyGoesTo s t (if a.toInt < b.toInt then target else s.pc + 1)) ∧
    (∃ t, exec (.bge rs1 rs2 imm) s = .next t ∧ OnlyGoesTo s t (if b.toInt ≤ a.toInt then target else s.pc + 1)) ∧
    (∃ t, exec (.bltu rs1 rs2 imm) s = .next t ∧ OnlyGoesTo s t (if a.toNat < b.toNat then target else s.pc + 1)) ∧
    (∃ t, exec (.bgeu rs1 rs2 imm) s = .next t ∧ OnlyGoesTo s t (if b.toNat ≤ a.toNat then target else s.pc + 1))

/-! ## Loads and stores -/

/-- R130: the effective address is the base register plus the signed offset, modulo 2^32, in words. -/
def Obligations.EffectiveAddressIsBasePlusOffset : Prop :=
  ∀ (s : State) (rs1 : RegIdx) (imm : BitVec 12),
    s.effAddr rs1 imm = BitVec.ofInt 32 ((s.readReg rs1).toInt + imm.toInt)

/-- R131: with the address in range LW puts the memory word there into rd, whole (the range test reads the index as signed, D27). -/
def Obligations.LoadWordReads : Prop :=
  ∀ (rd rs1 : RegIdx) (imm : BitVec 12) (s : State),
    0 ≤ (s.effAddr rs1 imm).toInt → (s.effAddr rs1 imm).toInt < (s.cfg.memWords : Int) →
    ∃ t, exec (.lw rd rs1 imm) s = .next t ∧ WritesOnly s t rd (memReadWord s.mem (s.effAddr rs1 imm).toInt.toNat)

/-- R132: with the address in range SW replaces the four bytes of the memory word there by x[rs2], and no other byte. -/
def Obligations.StoreWordWrites : Prop :=
  ∀ (rs1 rs2 : RegIdx) (imm : BitVec 12) (s : State), Memory.wf s.mem →
    0 ≤ (s.effAddr rs1 imm).toInt → (s.effAddr rs1 imm).toInt < (s.cfg.memWords : Int) →
    ∃ t, exec (.sw rs1 rs2 imm) s = .next t ∧ SameRegs s t ∧ t.pc = s.pc + 1 ∧ SameRest s t ∧
      memReadWord t.mem (s.effAddr rs1 imm).toInt.toNat = s.readReg rs2 ∧
      ∀ b, (b < 4 * (s.effAddr rs1 imm).toInt.toNat ∨ 4 * (s.effAddr rs1 imm).toInt.toNat + 4 ≤ b) →
        memReadByte t.mem b = memReadByte s.mem b

/-- LW and SW outside memory take OutOfBounds(a) and do nothing else, for rd = x0 too (the spec's decision D7). -/
def Obligations.LoadStoreOutsideMemoryFault : Prop :=
  ∀ (r rs1 : RegIdx) (imm : BitVec 12) (s : State),
    ¬ (0 ≤ (s.effAddr rs1 imm).toInt ∧ (s.effAddr rs1 imm).toInt < (s.cfg.memWords : Int)) →
    exec (.lw r rs1 imm) s = .next { s with run := .faulted (.outOfBounds (s.effAddr rs1 imm)) } ∧
    exec (.sw rs1 r imm) s = .next { s with run := .faulted (.outOfBounds (s.effAddr rs1 imm)) }

/-- R133 to R138: the byte and halfword loads and stores do nothing, whatever the address (the spec's decision D22). -/
def Obligations.WidthVariantsDoNothing : Prop :=
  ∀ (r rs1 : RegIdx) (imm : BitVec 12) (s : State),
    (∃ t, exec (.lb r rs1 imm) s = .next t ∧ OnlyAdvances s t) ∧
    (∃ t, exec (.lh r rs1 imm) s = .next t ∧ OnlyAdvances s t) ∧
    (∃ t, exec (.lbu r rs1 imm) s = .next t ∧ OnlyAdvances s t) ∧
    (∃ t, exec (.lhu r rs1 imm) s = .next t ∧ OnlyAdvances s t) ∧
    (∃ t, exec (.sb rs1 r imm) s = .next t ∧ OnlyAdvances s t) ∧
    (∃ t, exec (.sh rs1 r imm) s = .next t ∧ OnlyAdvances s t)

/-! ## Register-immediate ALU -/

/-- R151: the sum with the signed immediate, modulo 2^32. -/
def Obligations.AddiAddsImmediate : Prop :=
  ∀ (rd rs1 : RegIdx) (imm : BitVec 12) (s : State),
    ∃ t, exec (.addi rd rs1 imm) s = .next t ∧ WritesOnly s t rd (BitVec.ofInt 32 ((s.readReg rs1).toInt + imm.toInt))

/-- R152, R153: 1 or 0, by the signed comparison, and by the unsigned one with the sign-extended immediate. -/
def Obligations.SetLessThanImmediate : Prop :=
  ∀ (rd rs1 : RegIdx) (imm : BitVec 12) (s : State),
    (∃ t, exec (.slti rd rs1 imm) s = .next t ∧
      WritesOnly s t rd (if (s.readReg rs1).toInt < imm.toInt then 1 else 0)) ∧
    (∃ t, exec (.sltiu rd rs1 imm) s = .next t ∧
      WritesOnly s t rd (if (s.readReg rs1).toNat < (BitVec.ofInt 32 imm.toInt).toNat then 1 else 0))

/-- R154 to R156: bit by bit, with bit 11 of the immediate standing for its bits 11 to 31. -/
def Obligations.LogicalImmediate : Prop :=
  ∀ (rd rs1 : RegIdx) (imm : BitVec 12) (s : State),
    let bit (k : Nat) : Bool := imm.getLsbD (min k 11)
    (∃ t v, exec (.xori rd rs1 imm) s = .next t ∧ WritesOnly s t rd v ∧
      ∀ k < 32, v.getLsbD k = ((s.readReg rs1).getLsbD k ^^ bit k)) ∧
    (∃ t v, exec (.ori rd rs1 imm) s = .next t ∧ WritesOnly s t rd v ∧
      ∀ k < 32, v.getLsbD k = ((s.readReg rs1).getLsbD k || bit k)) ∧
    (∃ t v, exec (.andi rd rs1 imm) s = .next t ∧ WritesOnly s t rd v ∧
      ∀ k < 32, v.getLsbD k = ((s.readReg rs1).getLsbD k && bit k))

/-- R158 to R160: the shifts in OPIMM_SHIFT_MODE = standard, as numbers; the arithmetic one rounds down (general knowledge of the
spec, its G13). -/
def Obligations.ShiftImmediateStandard : Prop :=
  ∀ (rd rs1 : RegIdx) (shamt : BitVec 5) (s : State), s.cfg.shiftMode = .standard →
    (∃ t, exec (.slli rd rs1 shamt) s = .next t ∧
      WritesOnly s t rd (BitVec.ofNat 32 ((s.readReg rs1).toNat * 2 ^ shamt.toNat))) ∧
    (∃ t, exec (.srli rd rs1 shamt) s = .next t ∧
      WritesOnly s t rd (BitVec.ofNat 32 ((s.readReg rs1).toNat / 2 ^ shamt.toNat))) ∧
    (∃ t, exec (.srai rd rs1 shamt) s = .next t ∧
      WritesOnly s t rd (BitVec.ofInt 32 ((s.readReg rs1).toInt / 2 ^ shamt.toNat)))

/-- R157: in the modes noop and zero the shift-immediates do nothing, or write 0, and record UnrecognizedSubOp in
STRICT_MODE (the spec's decisions D10, D16). That the recorded word is `encode i` is the model's, DEDUCED from R93 in log 8. -/
def Obligations.ShiftImmediateNoopAndZero : Prop :=
  ∀ (rd rs1 : RegIdx) (shamt : BitVec 5) (s : State) (i : Instr),
    i = .slli rd rs1 shamt ∨ i = .srli rd rs1 shamt ∨ i = .srai rd rs1 shamt →
    (s.cfg.shiftMode = .noop → ∃ t, exec i s = .next t ∧ SameRegs s t ∧ t.pc = s.pc + 1 ∧ SameMem s t ∧
      Reports s t (.unrecognizedSubOp s.pc (encode i))) ∧
    (s.cfg.shiftMode = .zero → ∃ t, exec i s = .next t ∧ OnlyReg s t rd 0 ∧ t.pc = s.pc + 1 ∧ SameMem s t ∧
      Reports s t (.unrecognizedSubOp s.pc (encode i)))

/-! ## Register-register ALU -/

/-- R171, R172: sum and difference modulo 2^32. -/
def Obligations.AddAndSub : Prop :=
  ∀ (rd rs1 rs2 : RegIdx) (s : State),
    (∃ t, exec (.add rd rs1 rs2) s = .next t ∧
      WritesOnly s t rd (BitVec.ofInt 32 ((s.readReg rs1).toInt + (s.readReg rs2).toInt))) ∧
    (∃ t, exec (.sub rd rs1 rs2) s = .next t ∧
      WritesOnly s t rd (BitVec.ofInt 32 ((s.readReg rs1).toInt - (s.readReg rs2).toInt)))

/-- R174, R175: 1 or 0, by the signed and the unsigned comparison. -/
def Obligations.SetLessThan : Prop :=
  ∀ (rd rs1 rs2 : RegIdx) (s : State),
    (∃ t, exec (.slt rd rs1 rs2) s = .next t ∧
      WritesOnly s t rd (if (s.readReg rs1).toInt < (s.readReg rs2).toInt then 1 else 0)) ∧
    (∃ t, exec (.sltu rd rs1 rs2) s = .next t ∧
      WritesOnly s t rd (if (s.readReg rs1).toNat < (s.readReg rs2).toNat then 1 else 0))

/-- R176, R179, R180: bit by bit. -/
def Obligations.RegisterLogic : Prop :=
  ∀ (rd rs1 rs2 : RegIdx) (s : State),
    (∃ t v, exec (.xor rd rs1 rs2) s = .next t ∧ WritesOnly s t rd v ∧
      ∀ k < 32, v.getLsbD k = ((s.readReg rs1).getLsbD k ^^ (s.readReg rs2).getLsbD k)) ∧
    (∃ t v, exec (.or rd rs1 rs2) s = .next t ∧ WritesOnly s t rd v ∧
      ∀ k < 32, v.getLsbD k = ((s.readReg rs1).getLsbD k || (s.readReg rs2).getLsbD k)) ∧
    (∃ t v, exec (.and rd rs1 rs2) s = .next t ∧ WritesOnly s t rd v ∧
      ∀ k < 32, v.getLsbD k = ((s.readReg rs1).getLsbD k && (s.readReg rs2).getLsbD k))

/-- R173, R177, R178: the shifts by the low five bits of x[rs2] (the spec's decision D12), as numbers; SRA rounds down. -/
def Obligations.RegisterShifts : Prop :=
  ∀ (rd rs1 rs2 : RegIdx) (s : State),
    let n := (s.readReg rs2).toNat % 32
    (∃ t, exec (.sll rd rs1 rs2) s = .next t ∧ WritesOnly s t rd (BitVec.ofNat 32 ((s.readReg rs1).toNat * 2 ^ n))) ∧
    (∃ t, exec (.srl rd rs1 rs2) s = .next t ∧ WritesOnly s t rd (BitVec.ofNat 32 ((s.readReg rs1).toNat / 2 ^ n))) ∧
    (∃ t, exec (.sra rd rs1 rs2) s = .next t ∧ WritesOnly s t rd (BitVec.ofInt 32 ((s.readReg rs1).toInt / 2 ^ n)))

/-! ## FENCE, system and the Controller -/

/-- FENCE does nothing, whatever its fields (the spec's decision D15). -/
def Obligations.FenceDoesNothing : Prop :=
  ∀ (rd rs1 : RegIdx) (funct3 : BitVec 3) (imm : BitVec 12) (s : State),
    ∃ t, exec (.fence rd rs1 funct3 imm) s = .next t ∧ OnlyAdvances s t

/-- R192: ECALL does nothing: no trap, no register, no Controller call, no event in STRICT_MODE either. -/
def Obligations.EcallDoesNothing : Prop :=
  ∀ (rd rs1 : RegIdx) (s : State), ∃ t, exec (.ecall rd rs1) s = .next t ∧ OnlyAdvances s t

/-- R193: EBREAK halts; the pc advances all the same (which the spec derives from R27 and R83), nothing else changes, and
IsRunning() is false from then on. -/
def Obligations.EbreakHalts : Prop :=
  ∀ (rd rs1 : RegIdx) (s : State),
    ∃ t, exec (.ebreak rd rs1) s = .next t ∧ t.run = .halted ∧ isRunning t = false ∧ SameRegs s t ∧ t.pc = s.pc + 1 ∧
      SameMem s t ∧ t.log = s.log ∧ t.cfg = s.cfg ∧ t.controller = s.controller

/-- R195 to R198: ReadCSR, rd <- old, WriteCSR of the source, of old | source, of old & ~source; the source register is read
after rd is written when LINK_BEFORE_READ says so (the spec's decision D9). The address is the 12-bit field zero-extended (D13),
the answer whatever the Controller gives (D14). That the answer is `csrAnswer`, and that the call uses up one of `answers` and
adds 1 to `draws`, is the model's choice, log 3 (DESIGN CHOICE): the spec gives the Controller port no such fields. -/
def Obligations.CsrRegisterForms : Prop :=
  ∀ (rd rs1 : RegIdx) (csr : BitVec 12) (s : State),
    let a : Word := BitVec.ofNat 32 csr.toNat
    let old := s.csrAnswer a
    let src := s.operandAfterLink rd rs1 old
    (∃ t, exec (.csrrw rd rs1 csr) s = .next t ∧ CsrEffect s t rd a old src) ∧
    (∃ t, exec (.csrrs rd rs1 csr) s = .next t ∧ CsrEffect s t rd a old (old ||| src)) ∧
    (∃ t, exec (.csrrc rd rs1 csr) s = .next t ∧ CsrEffect s t rd a old (old &&& ~~~src))

/-- R199 to R201: the same with the source the literal uimm, 0 to 31, whatever LINK_BEFORE_READ is (address D13, answer D14). That
the answer is `csrAnswer`, and that the call uses up one of `answers` and adds 1 to `draws`, is the model's choice, log 3 (DESIGN
CHOICE). -/
def Obligations.CsrImmediateForms : Prop :=
  ∀ (rd : RegIdx) (uimm : BitVec 5) (csr : BitVec 12) (s : State),
    let a : Word := BitVec.ofNat 32 csr.toNat
    let old := s.csrAnswer a
    let src : Word := BitVec.ofNat 32 uimm.toNat
    (∃ t, exec (.csrrwi rd uimm csr) s = .next t ∧ CsrEffect s t rd a old src) ∧
    (∃ t, exec (.csrrsi rd uimm csr) s = .next t ∧ CsrEffect s t rd a old (old ||| src)) ∧
    (∃ t, exec (.csrrci rd uimm csr) s = .next t ∧ CsrEffect s t rd a old (old &&& ~~~src))

/-- No instruction but the six CSR instructions calls the Controller: the port and the calls in the log are as before (R205). -/
def Obligations.OnlyCsrCallsController : Prop :=
  ∀ (i : Instr) (s t : State), isCsr i = false → exec i s = .next t →
    t.controller = s.controller ∧ t.log.filter Event.isCall = s.log.filter Event.isCall

/-! ## Registers and memory -/

/-- R21: after any sequence of writes a register reads the value last written to it, its old value when nothing was, and x0
reads 0. -/
def Obligations.RegisterReadsLastWrite : Prop :=
  ∀ (ws : List (RegIdx × Word)) (s : State) (r : RegIdx),
    (ws.foldl (fun u w => u.writeReg w.1 w.2) s).readReg r =
      if r = 0#5 then 0#32 else (((ws.filter fun w => w.1 = r).getLast?).map Prod.snd).getD (s.readReg r)

/-- After any sequence of word writes a memory word reads the value last written to it, its old value when nothing was (R63); the
canonical form is kept. -/
def Obligations.MemoryReadsLastWrite : Prop :=
  ∀ (ws : List (Nat × Word)) (m : Memory) (i : Nat), Memory.wf m →
    Memory.wf (ws.foldl (fun n w => memWriteWord n w.1 w.2) m) ∧
    memReadWord (ws.foldl (fun n w => memWriteWord n w.1 w.2) m) i =
      (((ws.filter fun w => w.1 = i).getLast?).map Prod.snd).getD (memReadWord m i)

/-- A store is seen by the next fetch of its word, with no fence between, and by no other (R66, which the spec derives). -/
def Obligations.StoreSeenByFetch : Prop :=
  ∀ (rs1 rs2 : RegIdx) (imm : BitVec 12) (s t : State), s.Inv → s.run = .running →
    exec (.sw rs1 rs2 imm) s = .next t → t.run = .running →
    (startAtPC (s.effAddr rs1 imm) t).fetch = some (s.readReg rs2) ∧
    ∀ p, p ≠ s.effAddr rs1 imm → (startAtPC p t).fetch = (startAtPC p s).fetch

/-! ## Reset, construction and the driver port -/

/-- After reset every register reads 0 (the spec's decision D2), the pc is 0 (D4), memory is 0 (D3), the machine is Idle and the
log empty. -/
def Obligations.ResetLeaves : Prop :=
  (∀ r, State.reset.readReg r = 0) ∧ State.reset.pc = 0 ∧ (∀ i, memReadWord State.reset.mem i = 0) ∧
    State.reset.run = .idle ∧ isRunning State.reset = false ∧ State.reset.log = []

/-- R251: construction fails exactly for a byte length that is not a multiple of 4; the empty image is accepted. -/
def Obligations.ConstructRejectsMalformed : Prop :=
  ∀ (cfg : Config) (c : Controller),
    (∀ image, construct cfg c image = .error .malformedImage ↔ image.length % 4 ≠ 0) ∧
    ∃ s, construct cfg c [] = .ok s

/-- Construction leaves memory word i the i-th word of the image, little-endian, as far as the image and the MEM_WORDS words
reach, and 0 beyond (the spec's decision D3); registers 0 (D2), pc 0 (D4), Idle. -/
def Obligations.ConstructLoadsImage : Prop :=
  ∀ (cfg : Config) (c : Controller) (image : List Byte), image.length % 4 = 0 →
    ∃ s, construct cfg c image = .ok s ∧ s.cfg = cfg ∧ s.controller = c ∧ s.run = .idle ∧ s.pc = 0 ∧
      (∀ r, s.readReg r = 0) ∧
      ∀ i, memReadWord s.mem i =
        if i < min (image.length / 4) cfg.memWords then
          BitVec.ofNat 32 ((image.getD (4 * i) 0).toNat + 256 * (image.getD (4 * i + 1) 0).toNat +
            65536 * (image.getD (4 * i + 2) 0).toNat + 16777216 * (image.getD (4 * i + 3) 0).toNat)
        else 0

/-- R252: the length check comes first; an image of more than MEM_WORDS words is cut to the first MEM_WORDS words and the warning
recorded; a shorter one records nothing. -/
def Obligations.ConstructTruncates : Prop :=
  ∀ (cfg : Config) (c : Controller) (image : List Byte),
    (image.length % 4 ≠ 0 → construct cfg c image = .error .malformedImage) ∧
    (image.length % 4 = 0 → cfg.memWords < image.length / 4 →
      ∃ s u, construct cfg c image = .ok s ∧ construct cfg c (image.take (4 * cfg.memWords)) = .ok u ∧
        u.log = [] ∧ s = { u with log := [.imageTruncated] }) ∧
    (image.length % 4 = 0 → image.length / 4 ≤ cfg.memWords → ∃ s, construct cfg c image = .ok s ∧ s.log = [])

/-- StartAtPC, in every state (the spec's decision D5), moves the pc and sets Running; everything else survives. -/
def Obligations.StartAtPCStarts : Prop :=
  ∀ (p : Word) (s : State),
    (startAtPC p s).pc = p ∧ (startAtPC p s).run = .running ∧ SameRegs s (startAtPC p s) ∧ SameMem s (startAtPC p s) ∧
      (startAtPC p s).log = s.log ∧ (startAtPC p s).cfg = s.cfg ∧ (startAtPC p s).controller = s.controller

/-- R32, R258: IsRunning() is true exactly when Running, and reads nothing else. -/
def Obligations.IsRunningTellsRunning : Prop :=
  ∀ s t : State, (isRunning s = true ↔ s.run = .running) ∧ (s.run = t.run → isRunning s = isRunning t)

/-! ## Invariants and whole-machine rules -/

/-- Every step, from every state that meets it, keeps the invariant: memory in canonical form and inside the array, a fault that
is one. -/
def Obligations.StepKeepsInvariant : Prop :=
  ∀ s t : State, s.Inv → step s = .next t → t.Inv

/-- The machine after reset meets the invariant (its MEM_WORDS = 64 is the model's choice, log 1). -/
def Obligations.ResetMeetsInvariant : Prop := State.reset.Inv

/-- Every constructed machine with at least one memory word meets the invariant, and StartAtPC keeps it. -/
def Obligations.DriverPortMeetsInvariant : Prop :=
  (∀ (cfg : Config) (c : Controller) (image : List Byte) (s : State), cfg.wf = true →
    construct cfg c image = .ok s → s.Inv) ∧
  ∀ (p : Word) (s : State), s.Inv → (startAtPC p s).Inv

/-- R36: no step and no StartAtPC changes the parameters, MEM_WORDS among them; the register count is in the type. -/
def Obligations.ParametersNeverChange : Prop :=
  (∀ s t : State, step s = .next t → t.cfg = s.cfg) ∧ ∀ (p : Word) (s : State), (startAtPC p s).cfg = s.cfg

/-- A step writes no register but the destination its instruction names (R25, which the spec derives from the instruction rules). -/
def Obligations.OnlyDestinationWritten : Prop :=
  ∀ (i : Instr) (s t : State) (r : RegIdx), exec i s = .next t → destOf i ≠ some r → t.readReg r = s.readReg r

/-- A step changes memory only where it executes an SW in range, and then only the word the SW names (R59, R61). -/
def Obligations.OnlyStoreChangesMemory : Prop :=
  ∀ s t : State, Memory.wf s.mem → step s = .next t →
    SameMem s t ∨
    ∃ inst rs1 rs2 imm, s.About inst ∧ decode inst = .ok (.sw rs1 rs2 imm) ∧
      s.inRange (s.effAddr rs1 imm) = true ∧
      ∀ b, (b < 4 * (s.effAddr rs1 imm).toInt.toNat ∨ 4 * (s.effAddr rs1 imm).toInt.toNat + 4 ≤ b) →
        memReadByte t.mem b = memReadByte s.mem b

/-- A step ends in Halted exactly when it executes an EBREAK (R221). -/
def Obligations.OnlyEbreakHalts : Prop :=
  ∀ s t : State, step s = .next t →
    (t.run = .halted ↔ ∃ inst rd rs1, s.About inst ∧ decode inst = .ok (.ebreak rd rs1))

/-- A step that faults changed nothing else, and its reason is a word index out of range: the pc, or the address of the LW or SW it
executes (R223, R224; the fault itself is the spec's decision D7). -/
def Obligations.FaultsArePrecise : Prop :=
  ∀ (s t : State) (reason : Fault), step s = .next t → t.run = .faulted reason →
    ∃ a, reason = .outOfBounds a ∧ s.inRange a = false ∧ t = { s with run := .faulted (.outOfBounds a) } ∧
      (a = s.pc ∨ ∃ inst, s.About inst ∧ ∃ r rs1 imm, a = s.effAddr rs1 imm ∧
        (decode inst = .ok (.lw r rs1 imm) ∨ decode inst = .ok (.sw rs1 r imm)))

/-- A step that neither faults nor executes a jump or branch leaves the pc one word on (R27), an unrecognized word and EBREAK
among them. -/
def Obligations.PcAdvancesByOne : Prop :=
  ∀ (s t : State) (inst : Word), s.About inst → step s = .next t → badStop t = false →
    (∀ i, decode inst = .ok i → isControlTransfer i = false) → t.pc = s.pc + 1

/-- A step only appends to the log, at most two events, and none but Controller calls when STRICT_MODE is off (R41, R92). -/
def Obligations.LogOnlyGrows : Prop :=
  ∀ s t : State, step s = .next t →
    ∃ es, t.log = s.log ++ es ∧ es.length ≤ 2 ∧ (s.cfg.strictMode = false → ∀ e ∈ es, e.isCall = true)

/-- STRICT_MODE changes nothing but the log's diagnostic events: the machine with it off steps as the machine with it on, with the
same answers of the Controller (the spec's decision D16). -/
def Obligations.StrictModeOnlyLogs : Prop :=
  ∀ s t : State, step s = .next t → step s.quiet = .next t.quiet
end

