-- ==== Sys2Proof/Laws/Encoding.lean ====
section
/-! SUPPORT. Each field decoder gives back the fields its re-encoder placed (spec/30_encoding.md R72 to R77), for every format;
for B and J with the offset's implicit bit 0 clear. -/

namespace Sys2Proof

theorem decodeR_encodeR (f : RFields) : decodeR (encodeR f) = f := by
  rcases f with ⟨a, b, c, d, e, g⟩
  simp only [decodeR, encodeR, opcodeOf, RFields.mk.injEq]
  refine ⟨?_, ?_, ?_, ?_, ?_, ?_⟩ <;> apply BitVec.eq_of_getLsbD_eq <;> intro i hi <;>
    simp only [BitVec.getLsbD_extractLsb', BitVec.getLsbD_append] <;> interval_cases i <;> simp

theorem decodeI_encodeI (f : IFields) : decodeI (encodeI f) = f := by
  rcases f with ⟨a, b, c, d, e⟩
  simp only [decodeI, encodeI, opcodeOf, IFields.mk.injEq]
  refine ⟨?_, ?_, ?_, ?_, ?_⟩ <;> apply BitVec.eq_of_getLsbD_eq <;> intro i hi <;>
    simp only [BitVec.getLsbD_extractLsb', BitVec.getLsbD_append] <;> interval_cases i <;> simp

theorem decodeS_encodeS (f : SFields) : decodeS (encodeS f) = f := by
  rcases f with ⟨a, b, c, d, e⟩
  simp only [decodeS, encodeS, opcodeOf, SFields.mk.injEq]
  refine ⟨?_, ?_, ?_, ?_, ?_⟩ <;> apply BitVec.eq_of_getLsbD_eq <;> intro i hi <;>
    simp only [BitVec.getLsbD_extractLsb', BitVec.getLsbD_append] <;> interval_cases i <;> simp

theorem decodeB_encodeB (f : BFields) (h : branchOffsetOk f.imm = true) : decodeB (encodeB f) = f := by
  rcases f with ⟨a, b, c, d, e⟩
  simp [branchOffsetOk] at h
  simp only [decodeB, encodeB, opcodeOf, BFields.mk.injEq]
  refine ⟨?_, ?_, ?_, ?_, ?_⟩ <;> apply BitVec.eq_of_getLsbD_eq <;> intro i hi <;>
    simp only [BitVec.getLsbD_extractLsb', BitVec.getLsbD_append] <;> interval_cases i <;> simp [h]

theorem decodeU_encodeU (f : UFields) : decodeU (encodeU f) = f := by
  rcases f with ⟨a, b, c⟩
  simp only [decodeU, encodeU, opcodeOf, UFields.mk.injEq]
  refine ⟨?_, ?_, ?_⟩ <;> apply BitVec.eq_of_getLsbD_eq <;> intro i hi <;>
    simp only [BitVec.getLsbD_extractLsb', BitVec.getLsbD_append] <;> interval_cases i <;> simp

theorem decodeJ_encodeJ (f : JFields) (h : jumpOffsetOk f.imm = true) : decodeJ (encodeJ f) = f := by
  rcases f with ⟨a, b, c⟩
  simp [jumpOffsetOk] at h
  simp only [decodeJ, encodeJ, opcodeOf, JFields.mk.injEq]
  refine ⟨?_, ?_, ?_⟩ <;> apply BitVec.eq_of_getLsbD_eq <;> intro i hi <;>
    simp only [BitVec.getLsbD_extractLsb', BitVec.getLsbD_append] <;> interval_cases i <;> simp [h]

/-- The opcode of a re-encoded word, format by format. -/
theorem opcodeOf_encodeR (f : RFields) : opcodeOf (encodeR f) = f.opcode := congrArg RFields.opcode (decodeR_encodeR f)
theorem opcodeOf_encodeI (f : IFields) : opcodeOf (encodeI f) = f.opcode := congrArg IFields.opcode (decodeI_encodeI f)
theorem opcodeOf_encodeS (f : SFields) : opcodeOf (encodeS f) = f.opcode := congrArg SFields.opcode (decodeS_encodeS f)
theorem opcodeOf_encodeU (f : UFields) : opcodeOf (encodeU f) = f.opcode := congrArg UFields.opcode (decodeU_encodeU f)

theorem opcodeOf_encodeB (f : BFields) : opcodeOf (encodeB f) = f.opcode := by
  rcases f with ⟨a, b, c, d, e⟩
  apply BitVec.eq_of_getLsbD_eq
  intro i hi
  simp only [encodeB, opcodeOf, BitVec.getLsbD_extractLsb', BitVec.getLsbD_append]
  interval_cases i <;> simp

theorem opcodeOf_encodeJ (f : JFields) : opcodeOf (encodeJ f) = f.opcode := by
  rcases f with ⟨a, b, c⟩
  apply BitVec.eq_of_getLsbD_eq
  intro i hi
  simp only [encodeJ, opcodeOf, BitVec.getLsbD_extractLsb', BitVec.getLsbD_append]
  interval_cases i <;> simp

end Sys2Proof
end

