-- ==== Sys2Proof/Laws/State.lean ====
section
/-! SUPPORT. One lemma per field of State per update, so that no later proof unfolds a record update. -/

namespace Sys2Proof.Machine

section
variable (s : State) (r : RegIdx) (v a p : Word) (e : Event)

@[simp] theorem setPc_regs : (s.setPc p).regs = s.regs := rfl
@[simp] theorem setPc_pc : (s.setPc p).pc = p := rfl
@[simp] theorem setPc_mem : (s.setPc p).mem = s.mem := rfl
@[simp] theorem setPc_run : (s.setPc p).run = s.run := rfl
@[simp] theorem setPc_log : (s.setPc p).log = s.log := rfl
@[simp] theorem setPc_cfg : (s.setPc p).cfg = s.cfg := rfl
@[simp] theorem setPc_controller : (s.setPc p).controller = s.controller := rfl
@[simp] theorem setPc_readReg : (s.setPc p).readReg r = s.readReg r := rfl

@[simp] theorem advance_regs : s.advance.regs = s.regs := rfl
@[simp] theorem advance_pc : s.advance.pc = s.pc + 1 := rfl
@[simp] theorem advance_mem : s.advance.mem = s.mem := rfl
@[simp] theorem advance_run : s.advance.run = s.run := rfl
@[simp] theorem advance_log : s.advance.log = s.log := rfl
@[simp] theorem advance_cfg : s.advance.cfg = s.cfg := rfl
@[simp] theorem advance_controller : s.advance.controller = s.controller := rfl
@[simp] theorem advance_readReg : s.advance.readReg r = s.readReg r := rfl

@[simp] theorem halt_regs : s.halt.regs = s.regs := rfl
@[simp] theorem halt_pc : s.halt.pc = s.pc := rfl
@[simp] theorem halt_mem : s.halt.mem = s.mem := rfl
@[simp] theorem halt_run : s.halt.run = .halted := rfl
@[simp] theorem halt_log : s.halt.log = s.log := rfl
@[simp] theorem halt_cfg : s.halt.cfg = s.cfg := rfl
@[simp] theorem halt_controller : s.halt.controller = s.controller := rfl
@[simp] theorem halt_readReg : s.halt.readReg r = s.readReg r := rfl

@[simp] theorem record_regs : (s.record e).regs = s.regs := rfl
@[simp] theorem record_pc : (s.record e).pc = s.pc := rfl
@[simp] theorem record_mem : (s.record e).mem = s.mem := rfl
@[simp] theorem record_run : (s.record e).run = s.run := rfl
@[simp] theorem record_log : (s.record e).log = s.log ++ [e] := rfl
@[simp] theorem record_cfg : (s.record e).cfg = s.cfg := rfl
@[simp] theorem record_controller : (s.record e).controller = s.controller := rfl
@[simp] theorem record_readReg : (s.record e).readReg r = s.readReg r := rfl

@[simp] theorem event_regs : (s.event e).regs = s.regs := by unfold State.event; split <;> rfl
@[simp] theorem event_pc : (s.event e).pc = s.pc := by unfold State.event; split <;> rfl
@[simp] theorem event_mem : (s.event e).mem = s.mem := by unfold State.event; split <;> rfl
@[simp] theorem event_run : (s.event e).run = s.run := by unfold State.event; split <;> rfl
@[simp] theorem event_cfg : (s.event e).cfg = s.cfg := by unfold State.event; split <;> rfl
@[simp] theorem event_controller : (s.event e).controller = s.controller := by unfold State.event; split <;> rfl
@[simp] theorem event_readReg : (s.event e).readReg r = s.readReg r := by unfold State.event; split <;> rfl
@[simp] theorem event_log : (s.event e).log = s.log ++ (if s.cfg.strictMode then [e] else []) := by
  unfold State.event; split <;> simp

@[simp] theorem writeReg_pc : (s.writeReg r v).pc = s.pc := by unfold State.writeReg; split <;> rfl
@[simp] theorem writeReg_mem : (s.writeReg r v).mem = s.mem := by unfold State.writeReg; split <;> rfl
@[simp] theorem writeReg_run : (s.writeReg r v).run = s.run := by unfold State.writeReg; split <;> rfl
@[simp] theorem writeReg_log : (s.writeReg r v).log = s.log := by unfold State.writeReg; split <;> rfl
@[simp] theorem writeReg_cfg : (s.writeReg r v).cfg = s.cfg := by unfold State.writeReg; split <;> rfl
@[simp] theorem writeReg_controller : (s.writeReg r v).controller = s.controller := by
  unfold State.writeReg; split <;> rfl

@[simp] theorem csrRead_regs : (s.csrRead a).regs = s.regs := rfl
@[simp] theorem csrRead_pc : (s.csrRead a).pc = s.pc := rfl
@[simp] theorem csrRead_mem : (s.csrRead a).mem = s.mem := rfl
@[simp] theorem csrRead_run : (s.csrRead a).run = s.run := rfl
@[simp] theorem csrRead_log : (s.csrRead a).log = s.log ++ [.readCSR a (s.csrAnswer a)] := rfl
@[simp] theorem csrRead_cfg : (s.csrRead a).cfg = s.cfg := rfl
@[simp] theorem csrRead_controller :
    (s.csrRead a).controller = ⟨s.controller.answers.tail, s.controller.draws + 1⟩ := rfl
@[simp] theorem csrRead_readReg : (s.csrRead a).readReg r = s.readReg r := rfl

@[simp] theorem csrWrite_regs : (s.csrWrite a v).regs = s.regs := rfl
@[simp] theorem csrWrite_pc : (s.csrWrite a v).pc = s.pc := rfl
@[simp] theorem csrWrite_mem : (s.csrWrite a v).mem = s.mem := rfl
@[simp] theorem csrWrite_run : (s.csrWrite a v).run = s.run := rfl
@[simp] theorem csrWrite_log : (s.csrWrite a v).log = s.log ++ [.writeCSR a v] := rfl
@[simp] theorem csrWrite_cfg : (s.csrWrite a v).cfg = s.cfg := rfl
@[simp] theorem csrWrite_controller : (s.csrWrite a v).controller = s.controller := rfl
@[simp] theorem csrWrite_readReg : (s.csrWrite a v).readReg r = s.readReg r := rfl

@[simp] theorem startAtPC_regs : (startAtPC p s).regs = s.regs := rfl
@[simp] theorem startAtPC_pc : (startAtPC p s).pc = p := rfl
@[simp] theorem startAtPC_mem : (startAtPC p s).mem = s.mem := rfl
@[simp] theorem startAtPC_run : (startAtPC p s).run = .running := rfl
@[simp] theorem startAtPC_log : (startAtPC p s).log = s.log := rfl
@[simp] theorem startAtPC_cfg : (startAtPC p s).cfg = s.cfg := rfl
@[simp] theorem startAtPC_controller : (startAtPC p s).controller = s.controller := rfl

/-- The registers read only the file. -/
theorem readReg_congr {s t : State} (h : t.regs = s.regs) (r : RegIdx) : t.readReg r = s.readReg r := by
  unfold State.readReg; split <;> simp [h]

/-- Replacing memory leaves the registers. -/
@[simp] theorem setMem_readReg (m : Memory) : ({ s with mem := m } : State).readReg r = s.readReg r := rfl

/-- Changing the lifecycle state leaves the registers. -/
@[simp] theorem setRun_readReg (q : RunState) : ({ s with run := q } : State).readReg r = s.readReg r := rfl

/-- x0 reads 0 (spec/10_state.md R21). -/
@[simp] theorem readReg_zero : s.readReg 0#5 = 0#32 := rfl

/-- A write to x0 is discarded (R22). -/
@[simp] theorem writeReg_zero : s.writeReg 0#5 v = s := rfl

/-- A register reads what was written to it, x0 excepted (R21, R22). -/
theorem readReg_writeReg_same (h : r ≠ 0#5) : (s.writeReg r v).readReg r = v := by
  simp [State.readReg, State.writeReg, h]

/-- A write leaves every other register (R22). -/
theorem readReg_writeReg_ne {r q : RegIdx} (h : q ≠ r) : (s.writeReg r v).readReg q = s.readReg q := by
  by_cases hr : r = 0#5
  · subst hr; rfl
  by_cases hq : q = 0#5
  · subst hq; rfl
  have hr0 : r.toNat ≠ 0 := fun e => hr (BitVec.eq_of_toNat_eq (by simpa using e))
  have hq0 : q.toNat ≠ 0 := fun e => hq (BitVec.eq_of_toNat_eq (by simpa using e))
  have hne : r.toNat - 1 ≠ q.toNat - 1 := fun e => h (BitVec.eq_of_toNat_eq (by omega))
  simp [State.readReg, State.writeReg, hr, hq, hne]

/-- Both in one: what any register reads after a write. -/
theorem readReg_writeReg (q : RegIdx) :
    (s.writeReg r v).readReg q = if q = r then (if r = 0#5 then 0#32 else v) else s.readReg q := by
  split
  · next h =>
    subst h
    split
    · next h0 => subst h0; rfl
    · next h0 => exact readReg_writeReg_same s q v h0
  · next h => exact readReg_writeReg_ne s v h

end

end Sys2Proof.Machine
end

