-- ==== Sys2Proof/Laws/Memory.lean ====
section
/-! SUPPORT. Memory: a byte read after a byte write, the canonical form kept, and the same for whole words. -/

namespace Sys2Proof.Machine

/-! ## Bytes -/

/-- Below every listed address nothing is listed. -/
theorem memReadByte_of_lt {m : Memory} {a : Nat} (h : ∀ c ∈ m, a < c.1) : memReadByte m a = unlistedByte := by
  induction m with
  | nil => rfl
  | cons c m ih =>
    have hc := h c (by simp)
    simp only [memReadByte, if_neg (Nat.ne_of_lt hc)]
    exact ih fun d hd => h d (by simp [hd])

/-- A byte write is seen by the read of the same address, and of no other. -/
theorem memReadByte_memWriteByte {m : Memory} (hm : Memory.wf m) (a b : Nat) (v : Byte) :
    memReadByte (memWriteByte m a v) b = if b = a then v else memReadByte m b := by
  induction m with
  | nil =>
    by_cases hv : v = unlistedByte <;> by_cases hb : b = a <;> simp [memWriteByte, memReadByte, hv, hb]
  | cons c m ih =>
    obtain ⟨x, u⟩ := c
    have hp := List.pairwise_cons.mp hm.1
    have ih' := ih ⟨hp.2, fun d hd => hm.2 d (by simp [hd])⟩
    simp only [memWriteByte]
    by_cases h1 : a < x
    · have hlt : memReadByte m a = unlistedByte := memReadByte_of_lt fun d hd => Nat.lt_trans h1 (hp.1 d hd)
      have hax : a ≠ x := Nat.ne_of_lt h1
      by_cases hv : v = unlistedByte <;> by_cases hb : b = a <;> simp [h1, hv, hb, memReadByte, hax, hlt]
    · by_cases h2 : a = x
      · subst h2
        have hlt : memReadByte m a = unlistedByte := memReadByte_of_lt fun d hd => hp.1 d hd
        by_cases hv : v = unlistedByte <;> by_cases hb : b = a <;> simp [hv, hb, memReadByte, hlt]
      · simp only [h1, h2, if_false, memReadByte, ih']
        by_cases hbx : b = x
        · have hba : b ≠ a := fun e => h2 (by omega)
          simp [hbx, Ne.symm h2]
        · simp [hbx]

/-- Every cell after a write is an old one or the one written. -/
theorem mem_memWriteByte {m : Memory} {a : Nat} {v : Byte} {c : Host.Cell} (h : c ∈ memWriteByte m a v) :
    c ∈ m ∨ (c = (a, v) ∧ v ≠ unlistedByte) := by
  induction m with
  | nil =>
    simp only [memWriteByte] at h
    split at h
    · simp at h
    · next hv => exact Or.inr ⟨by simpa using h, hv⟩
  | cons d m ih =>
    have keep : c ∈ m → c ∈ d :: m := List.mem_cons_of_mem d
    simp only [memWriteByte] at h
    by_cases hv : v = unlistedByte
    · simp only [hv, if_true] at h ih
      by_cases h1 : a < d.1
      · exact Or.inl (by simpa [h1] using h)
      by_cases h2 : a = d.1
      · exact Or.inl (keep (by simpa [h2] using h))
      · rcases (by simpa [h1, h2] using h : c = d ∨ c ∈ memWriteByte m a unlistedByte) with rfl | h
        · exact Or.inl (by simp)
        · exact (ih h).elim (fun h => Or.inl (keep h)) fun h => absurd rfl h.2
    · simp only [hv, if_false] at h
      by_cases h1 : a < d.1
      · rcases (by simpa [h1] using h : c = (a, v) ∨ c = d ∨ c ∈ m) with h | h
        · exact Or.inr ⟨h, hv⟩
        · exact Or.inl (by simpa using h)
      by_cases h2 : a = d.1
      · rcases (by simpa [h2] using h : c = (d.1, v) ∨ c ∈ m) with h | h
        · exact Or.inr ⟨by rw [h2, h], hv⟩
        · exact Or.inl (keep h)
      · rcases (by simpa [h1, h2] using h : c = d ∨ c ∈ memWriteByte m a v) with rfl | h
        · exact Or.inl (by simp)
        · exact (ih h).imp keep id

/-- A byte write keeps the canonical form. -/
theorem memWriteByte_wf {m : Memory} (hm : Memory.wf m) (a : Nat) (v : Byte) : Memory.wf (memWriteByte m a v) := by
  refine ⟨?_, fun c hc => (mem_memWriteByte hc).elim (hm.2 c) fun h => by rw [h.1]; exact h.2⟩
  induction m with
  | nil => simp only [memWriteByte]; split <;> simp
  | cons d m ih =>
    have hp := List.pairwise_cons.mp hm.1
    have hm' : Memory.wf m := ⟨hp.2, fun c hc => hm.2 c (by simp [hc])⟩
    simp only [memWriteByte]
    split
    · next hlt =>
      split
      · exact hm.1
      · refine List.pairwise_cons.mpr ⟨fun c hc => ?_, hm.1⟩
        rcases List.mem_cons.mp hc with rfl | hc
        · exact hlt
        · exact Nat.lt_trans hlt (hp.1 c hc)
    · split
      · next heq =>
        split
        · exact hp.2
        · exact List.pairwise_cons.mpr ⟨fun c hc => by simpa [heq] using hp.1 c hc, hp.2⟩
      · refine List.pairwise_cons.mpr ⟨fun c hc => ?_, ih hm'⟩
        rcases mem_memWriteByte hc with hc | ⟨rfl, _⟩
        · exact hp.1 c hc
        · simp only; omega

/-- A byte write inside a bound keeps the cells inside it. -/
theorem memWriteByte_inside {m : Memory} {a n : Nat} (v : Byte) (hm : ∀ c ∈ m, c.1 < n) (ha : a < n) :
    ∀ c ∈ memWriteByte m a v, c.1 < n := fun c hc =>
  (mem_memWriteByte hc).elim (hm c) fun h => by rw [h.1]; exact ha

/-- Two canonical memories that read alike are equal data. -/
theorem Memory.ext_of_wf {m n : Memory} (hm : Memory.wf m) (hn : Memory.wf n)
    (h : ∀ a, memReadByte m a = memReadByte n a) : m = n := by
  induction m generalizing n with
  | nil =>
    cases n with
    | nil => rfl
    | cons d n =>
      have := h d.1
      simp only [memReadByte, if_true] at this
      exact absurd this.symm (hn.2 d (by simp))
  | cons c m ih =>
    cases n with
    | nil =>
      have := h c.1
      simp only [memReadByte, if_true] at this
      exact absurd this (hm.2 c (by simp))
    | cons d n =>
      have hpm := List.pairwise_cons.mp hm.1
      have hpn := List.pairwise_cons.mp hn.1
      have hkey : c.1 = d.1 := by
        rcases Nat.lt_trichotomy c.1 d.1 with hlt | heq | hgt
        · have h1 := h c.1
          rw [memReadByte_of_lt (m := d :: n) (a := c.1)] at h1
          · simp only [memReadByte, if_true] at h1
            exact absurd h1 (hm.2 c (by simp))
          · intro e he
            rcases List.mem_cons.mp he with rfl | he
            · exact hlt
            · exact Nat.lt_trans hlt (hpn.1 e he)
        · exact heq
        · have h1 := h d.1
          rw [memReadByte_of_lt (m := c :: m) (a := d.1)] at h1
          · simp only [memReadByte, if_true] at h1
            exact absurd h1.symm (hn.2 d (by simp))
          · intro e he
            rcases List.mem_cons.mp he with rfl | he
            · exact hgt
            · exact Nat.lt_trans hgt (hpm.1 e he)
      have hval : c.2 = d.2 := by
        have h1 := h c.1
        simpa [memReadByte, hkey] using h1
      have htail : m = n := by
        refine ih ⟨hpm.2, fun e he => hm.2 e (by simp [he])⟩ ⟨hpn.2, fun e he => hn.2 e (by simp [he])⟩ fun a => ?_
        by_cases ha : a = c.1
        · subst ha
          rw [memReadByte_of_lt fun e he => hpm.1 e he, memReadByte_of_lt fun e he => hkey ▸ hpn.1 e he]
        · have h1 := h a
          simpa [memReadByte, ha, hkey ▸ ha] using h1
      rw [htail, Prod.ext hkey hval]

/-! ## Words -/

/-- A word is the word of its four bytes (spec/20_memory.md R57). -/
@[simp] theorem assembleWord_wordByte (w : Word) :
    assembleWord (wordByte w 0) (wordByte w 1) (wordByte w 2) (wordByte w 3) = w := by
  apply BitVec.eq_of_getLsbD_eq
  intro i hi
  simp only [assembleWord, wordByte, BitVec.getLsbD_append, BitVec.getLsbD_extractLsb']
  rcases Nat.lt_or_ge i 8 with h | h
  · simp [h]
  rcases Nat.lt_or_ge i 16 with h2 | h2
  · simp [Nat.not_lt.mpr h, show i - 8 < 8 by omega, show 8 + (i - 8) = i by omega]
  rcases Nat.lt_or_ge i 24 with h3 | h3
  · simp [Nat.not_lt.mpr h, show ¬ i - 8 < 8 by omega, show i - 8 - 8 < 8 by omega,
      show 16 + (i - 8 - 8) = i by omega]
  · simp [Nat.not_lt.mpr h, show ¬ i - 8 < 8 by omega, show ¬ i - 8 - 8 < 8 by omega,
      show i - 8 - 8 - 8 < 8 by omega, show 24 + (i - 8 - 8 - 8) = i by omega]

/-- The byte `b` after word `i` is replaced: one of the word's four bytes, or as before. -/
theorem memReadByte_memWriteWord {m : Memory} (hm : Memory.wf m) (i b : Nat) (v : Word) :
    memReadByte (memWriteWord m i v) b =
      if b = 4 * i + 3 then wordByte v 3 else if b = 4 * i + 2 then wordByte v 2
      else if b = 4 * i + 1 then wordByte v 1 else if b = 4 * i then wordByte v 0 else memReadByte m b := by
  have h0 := memWriteByte_wf hm (4 * i) (wordByte v 0)
  have h1 := memWriteByte_wf h0 (4 * i + 1) (wordByte v 1)
  have h2 := memWriteByte_wf h1 (4 * i + 2) (wordByte v 2)
  rw [memWriteWord, memReadByte_memWriteByte h2, memReadByte_memWriteByte h1, memReadByte_memWriteByte h0,
    memReadByte_memWriteByte hm]

/-- A byte outside the word's four is as before. -/
theorem memReadByte_memWriteWord_outside {m : Memory} (hm : Memory.wf m) {i b : Nat} (v : Word)
    (hb : b < 4 * i ∨ 4 * i + 4 ≤ b) : memReadByte (memWriteWord m i v) b = memReadByte m b := by
  rw [memReadByte_memWriteWord hm, if_neg (by omega), if_neg (by omega), if_neg (by omega), if_neg (by omega)]

/-- A word write is seen by the read of the same word, and of no other. -/
theorem memReadWord_memWriteWord {m : Memory} (hm : Memory.wf m) (i j : Nat) (v : Word) :
    memReadWord (memWriteWord m i v) j = if j = i then v else memReadWord m j := by
  split
  · next h =>
    subst h
    simp [memReadWord, memReadByte_memWriteWord hm]
  · next h =>
    simp only [memReadWord]
    rw [memReadByte_memWriteWord_outside hm v (by omega), memReadByte_memWriteWord_outside hm v (by omega),
      memReadByte_memWriteWord_outside hm v (by omega), memReadByte_memWriteWord_outside hm v (by omega)]

/-- A word write keeps the canonical form. -/
theorem memWriteWord_wf {m : Memory} (hm : Memory.wf m) (i : Nat) (v : Word) : Memory.wf (memWriteWord m i v) :=
  memWriteByte_wf (memWriteByte_wf (memWriteByte_wf (memWriteByte_wf hm _ _) _ _) _ _) _ _

/-- A word write inside n words keeps the cells inside them. -/
theorem memWriteWord_inside {m : Memory} {i n : Nat} (v : Word) (hm : ∀ c ∈ m, c.1 < 4 * n) (hi : i < n) :
    ∀ c ∈ memWriteWord m i v, c.1 < 4 * n :=
  memWriteByte_inside _ (memWriteByte_inside _ (memWriteByte_inside _ (memWriteByte_inside _ hm (by omega)) (by omega))
    (by omega)) (by omega)

/-! ## The cells of an image -/

/-- The cells of an image lie at its addresses. -/
theorem mem_imageCells {a : Nat} {bs : List Byte} {c : Host.Cell} (h : c ∈ imageCells a bs) :
    a ≤ c.1 ∧ c.1 < a + bs.length ∧ c.2 ≠ unlistedByte := by
  induction bs generalizing a with
  | nil => simp [imageCells] at h
  | cons b bs ih =>
    simp only [imageCells] at h
    split at h
    · have := ih h; simp only [List.length_cons]; exact ⟨by omega, by omega, this.2.2⟩
    · next hb =>
      rcases List.mem_cons.mp h with rfl | h
      · exact ⟨Nat.le_refl _, by simp, hb⟩
      · have := ih h; simp only [List.length_cons]; exact ⟨by omega, by omega, this.2.2⟩

/-- The cells of an image are in canonical form. -/
theorem imageCells_wf (a : Nat) (bs : List Byte) : Memory.wf (imageCells a bs) := by
  refine ⟨?_, fun c hc => (mem_imageCells hc).2.2⟩
  induction bs generalizing a with
  | nil => simp [imageCells]
  | cons b bs ih =>
    simp only [imageCells]
    split
    · exact ih _
    · exact List.pairwise_cons.mpr ⟨fun c hc => by have := (mem_imageCells hc).1; simp only; omega, ih _⟩

/-- An image's cells read as its bytes, and as an unlisted byte elsewhere. -/
theorem memReadByte_imageCells (a k : Nat) (bs : List Byte) :
    memReadByte (imageCells a bs) (a + k) = bs.getD k unlistedByte := by
  induction bs generalizing a k with
  | nil => simp [imageCells, memReadByte]
  | cons b bs ih =>
    cases k with
    | zero =>
      simp only [imageCells, Nat.add_zero, List.getD_cons_zero]
      split
      · next hb =>
        rw [hb]
        exact memReadByte_of_lt fun c hc => by have := (mem_imageCells hc).1; omega
      · simp [memReadByte]
    | succ k =>
      have hk := ih (a + 1) k
      rw [show a + 1 + k = a + (k + 1) by omega] at hk
      simp only [imageCells, List.getD_cons_succ]
      split
      · exact hk
      · simp only [memReadByte]
        rw [if_neg (by omega)]
        exact hk

end Sys2Proof.Machine
end

