-- ==== Sys2Proof/Laws/Operands.lean ====
section
/-! SUPPORT. What the operand forms mean as numbers (spec/00_scope.md R10, R11). -/

namespace Sys2Proof.Machine

/-- Sign extension keeps the signed reading (the source's law of R10), for a field no wider than a word. -/
theorem sext_toInt {n : Nat} (v : BitVec n) (h : n ≤ 32) : (sext v).toInt = v.toInt :=
  BitVec.toInt_signExtend_of_le h

/-- Zero extension keeps the unsigned reading, for a field no wider than a word. -/
theorem zext_toNat {n : Nat} (v : BitVec n) (h : n ≤ 32) : (zext v).toNat = v.toNat := by
  simp only [zext, BitVec.toNat_setWidth]
  exact Nat.mod_eq_of_lt (Nat.lt_of_lt_of_le v.isLt (Nat.pow_le_pow_right (by decide) h))

/-- The word offset is the byte offset divided by 4, rounded toward zero (R11). -/
theorem wordOffset_eq {n : Nat} (imm : BitVec n) (h : n ≤ 32) :
    wordOffset imm = BitVec.ofInt 32 (imm.toInt.tdiv 4) := by
  rw [wordOffset, tdiv4, sext_toInt imm h]

/-- A shift amount is the low five bits: the value modulo 32 (spec/44_alu_register.md R170). -/
theorem shiftAmount_eq (v : Word) : shiftAmount v = v.toNat % 32 := by
  simp [shiftAmount, BitVec.extractLsb'_toNat]

/-- The upper immediate as a number. -/
theorem upperImm_toNat (imm : BitVec 20) : (upperImm imm).toNat = imm.toNat * 4096 := by
  have h := imm.isLt
  simp only [upperImm, BitVec.toNat_shiftLeft, zext_toNat imm (by decide), Nat.shiftLeft_eq]
  omega

/-- A comparison's result is 1 or 0 (R182). -/
theorem boolWord_eq (c : Bool) : boolWord c = 1 ∧ c = true ∨ boolWord c = 0 ∧ c = false := by
  cases c <;> simp [boolWord]

theorem ltSigned_eq (a b : Word) : ltSigned a b = true ↔ a.toInt < b.toInt := by simp [ltSigned]

theorem ltUnsigned_eq (a b : Word) : ltUnsigned a b = true ↔ a.toNat < b.toNat := by simp [ltUnsigned]

end Sys2Proof.Machine
end

