-- ==== Sys2Proof/Laws/Ops.lean ====
section
/-! SUPPORT. One lemma per shared operation that says once everything it can do; proofs about an instruction cite these. -/

namespace Sys2Proof.Machine

section
variable (s : State) (r rd : RegIdx) (v a : Word)

/-! ## Memory accesses -/

theorem inRange_iff : s.inRange a = true ↔ 0 ≤ a.toInt ∧ a.toInt < (s.cfg.memWords : Int) := by simp [State.inRange]

/-- The range depends on MEM_WORDS only. -/
theorem inRange_congr {s t : State} (h : t.cfg.memWords = s.cfg.memWords) (a : Word) : t.inRange a = s.inRange a := by
  simp [State.inRange, h]

/-- An index in range names one of the MEM_WORDS words. -/
theorem index_lt_of_inRange {s : State} {a : Word} (h : s.inRange a = true) : a.toInt.toNat < s.cfg.memWords := by
  have := (inRange_iff s a).mp h
  omega

theorem memRead_of_inRange (h : s.inRange a = true) : s.memRead a = some (memReadWord s.mem a.toInt.toNat) := by
  simp [State.memRead, h]

theorem memRead_of_outside (h : s.inRange a = false) : s.memRead a = none := by simp [State.memRead, h]

theorem memWrite_of_inRange (h : s.inRange a = true) :
    s.memWrite a v = some { s with mem := memWriteWord s.mem a.toInt.toNat v } := by
  simp [State.memWrite, h]

theorem memWrite_of_outside (h : s.inRange a = false) : s.memWrite a v = none := by simp [State.memWrite, h]

/-! ## The ends of an instruction -/

theorem complete_eq : complete s = .next s.advance := rfl
theorem nop_eq : nop s = .next s.advance := rfl
theorem writeResult_eq : writeResult rd v s = .next (s.writeReg rd v).advance := rfl
theorem raise_eq (reason : Fault) : raise reason s = .next { s with run := .faulted reason } := rfl

/-- A load: the word into rd, or OutOfBounds and nothing else (spec/42_load_store.md R131). -/
theorem execLw_eq (rs1 : RegIdx) (imm : BitVec 12) :
    execLw rd rs1 imm s =
      if s.inRange (s.effAddr rs1 imm) then
        .next (s.writeReg rd (memReadWord s.mem (s.effAddr rs1 imm).toInt.toNat)).advance
      else .next { s with run := .faulted (.outOfBounds (s.effAddr rs1 imm)) } := by
  unfold execLw State.memRead
  cases h : s.inRange (s.effAddr rs1 imm) <;> simp [raise_eq, writeResult_eq]

/-- A store: the word replaced, or OutOfBounds and nothing else (R132). -/
theorem execSw_eq (rs1 rs2 : RegIdx) (imm : BitVec 12) :
    execSw rs1 rs2 imm s =
      if s.inRange (s.effAddr rs1 imm) then
        .next (State.advance { s with mem := memWriteWord s.mem (s.effAddr rs1 imm).toInt.toNat (s.readReg rs2) })
      else .next { s with run := .faulted (.outOfBounds (s.effAddr rs1 imm)) } := by
  unfold execSw State.memWrite
  cases h : s.inRange (s.effAddr rs1 imm) <;> simp [raise_eq, complete_eq]

/-- The state LINK_BEFORE_READ leaves is one with rd written, in either order (R112, R195). -/
@[simp] theorem writeAndRead_snd (source : State → Word) : (s.writeAndRead rd v source).2 = s.writeReg rd v := by
  unfold State.writeAndRead; split <;> rfl

/-- A source that is a register, read after the write or before it. -/
theorem writeAndRead_fst_reg :
    (s.writeAndRead rd v (fun u => u.readReg r)).1 =
      if s.cfg.linkBeforeRead = true ∧ r = rd ∧ rd ≠ 0#5 then v else s.readReg r := by
  unfold State.writeAndRead
  cases hl : s.cfg.linkBeforeRead
  · simp
  · simp only [if_true, true_and, readReg_writeReg]
    by_cases h : r = rd
    · subst h
      by_cases h0 : r = 0#5
      · subst h0; simp
      · simp [h0]
    · simp [h]

/-- A source that is a literal is the same in either order. -/
theorem writeAndRead_fst_const (w : Word) : (s.writeAndRead rd v (fun _ => w)).1 = w := by
  unfold State.writeAndRead; split <;> rfl

/-- A CSR instruction: ReadCSR, rd, WriteCSR, the advance; it never stops (R195). -/
theorem csrOp_eq (f : Word → Word → Word) (source : State → Word) (csr : BitVec 12) :
    csrOp f source rd csr s =
      .next (State.advance (((s.csrRead (csrAddr csr)).writeReg rd (s.csrAnswer (csrAddr csr))).csrWrite (csrAddr csr)
        (f (s.csrAnswer (csrAddr csr))
          ((s.csrRead (csrAddr csr)).writeAndRead rd (s.csrAnswer (csrAddr csr)) source).1))) := by
  simp only [csrOp, complete_eq, writeAndRead_snd]

/-- A shift-immediate word by OPIMM_SHIFT_MODE (R157). -/
theorem shiftByMode_eq (inst : Word) :
    shiftByMode inst rd v s =
      match s.cfg.shiftMode with
      | .noop => .next (s.event (.unrecognizedSubOp s.pc inst)).advance
      | .zero => .next ((s.event (.unrecognizedSubOp s.pc inst)).writeReg rd 0).advance
      | .standard => .next (s.writeReg rd v).advance := by
  unfold shiftByMode
  cases s.cfg.shiftMode <;> rfl

/-- A branch goes to pc + q when taken, to pc + 1 when not (R113). -/
theorem branch_eq (taken : Bool) (imm : BitVec 13) :
    branch taken imm s = .next (s.setPc (if taken then s.pc + wordOffset imm else s.pc + 1)) := by
  cases taken
  · rfl
  · simp only [branch, if_true, complete_eq, State.advance, State.setPc, BitVec.sub_add_cancel]

/-- JAL goes to pc + q and links pc + 4 (R111). -/
theorem execJal_eq (imm : BitVec 21) :
    execJal rd imm s = .next ((s.writeReg rd (s.pc + 4)).setPc (s.pc + wordOffset imm)) := by
  simp only [execJal, complete_eq, State.advance, State.setPc, BitVec.sub_add_cancel, State.link]

/-- JALR links pc + 4 and goes one past the cleared target (R112). -/
theorem execJalr_eq (rs1 : RegIdx) (funct3 : BitVec 3) (imm : BitVec 12) :
    execJalr rd rs1 funct3 imm s =
      .next ((s.writeReg rd (s.pc + 4)).setPc
        ((((s.writeAndRead rd (s.pc + 4) (fun u => u.readReg rs1)).1 + s.pc) &&& 0xFFFFFFFE) + 1)) := by
  simp only [execJalr, complete_eq, State.advance, State.setPc, State.link, writeAndRead_snd]

end

/-! ## Everything an instruction can do -/

/-- What a completed instruction leaves of the parts no instruction writes freely: the parameters stay, the log grows at its
end, memory is as before or has one word in range replaced, and the machine runs on, or halts, or has taken OutOfBounds with
nothing else changed. -/
def Effect (s t : State) : Prop :=
  t.cfg = s.cfg ∧ s.log <+: t.log ∧
  (t.mem = s.mem ∨ ∃ a v, s.inRange a = true ∧ t.mem = memWriteWord s.mem a.toInt.toNat v) ∧
  (t.run = s.run ∨ t.run = .halted ∨
    ∃ a, s.inRange a = false ∧ t = { s with run := .faulted (.outOfBounds a) })

theorem effect_writeResult (rd : RegIdx) (v : Word) (s : State) : ∃ t, writeResult rd v s = .next t ∧ Effect s t :=
  ⟨_, rfl, by simp, by simp, by simp, by simp⟩

theorem effect_nop (s : State) : ∃ t, nop s = .next t ∧ Effect s t :=
  ⟨_, rfl, by simp, by simp, by simp, by simp⟩

theorem effect_raise {a : Word} {s : State} (h : s.inRange a = false) :
    ∃ t, raise (.outOfBounds a) s = .next t ∧ Effect s t :=
  ⟨_, rfl, rfl, List.prefix_rfl, Or.inl rfl, Or.inr (Or.inr ⟨a, h, rfl⟩)⟩

theorem effect_branch (taken : Bool) (imm : BitVec 13) (s : State) : ∃ t, branch taken imm s = .next t ∧ Effect s t :=
  ⟨_, branch_eq s taken imm, rfl, List.prefix_rfl, Or.inl rfl, Or.inl rfl⟩

theorem effect_csrOp (f : Word → Word → Word) (source : State → Word) (rd : RegIdx) (csr : BitVec 12) (s : State) :
    ∃ t, csrOp f source rd csr s = .next t ∧ Effect s t :=
  ⟨_, csrOp_eq s rd f source csr, by simp, by simp [List.append_assoc], by simp, by simp⟩

theorem effect_shiftByMode (inst : Word) (rd : RegIdx) (v : Word) (s : State) :
    ∃ t, shiftByMode inst rd v s = .next t ∧ Effect s t := by
  rw [shiftByMode_eq]
  cases s.cfg.shiftMode <;> exact ⟨_, rfl, by simp, by simp, by simp, by simp⟩

theorem effect_execLw (rd rs1 : RegIdx) (imm : BitVec 12) (s : State) : ∃ t, execLw rd rs1 imm s = .next t ∧ Effect s t := by
  rw [execLw_eq]
  cases h : s.inRange (s.effAddr rs1 imm)
  · exact effect_raise h
  · exact effect_writeResult rd _ s

theorem effect_execSw (rs1 rs2 : RegIdx) (imm : BitVec 12) (s : State) : ∃ t, execSw rs1 rs2 imm s = .next t ∧ Effect s t := by
  rw [execSw_eq]
  cases h : s.inRange (s.effAddr rs1 imm)
  · exact effect_raise h
  · exact ⟨_, rfl, rfl, List.prefix_rfl, Or.inr ⟨_, _, h, rfl⟩, Or.inl rfl⟩

/-- What every instruction can do (R87: none traps and none is refused). -/
theorem exec_effect (i : Instr) (s : State) : ∃ t, exec i s = .next t ∧ Effect s t := by
  cases i with
  | lui rd imm => exact effect_writeResult rd _ s
  | auipc rd imm => exact effect_writeResult rd _ s
  | jal rd imm => exact ⟨_, execJal_eq s rd imm, by simp, by simp, by simp, by simp⟩
  | jalr rd rs1 f imm => exact ⟨_, execJalr_eq s rd rs1 f imm, by simp, by simp, by simp, by simp⟩
  | beq rs1 rs2 imm => exact effect_branch _ imm s
  | bne rs1 rs2 imm => exact effect_branch _ imm s
  | blt rs1 rs2 imm => exact effect_branch _ imm s
  | bge rs1 rs2 imm => exact effect_branch _ imm s
  | bltu rs1 rs2 imm => exact effect_branch _ imm s
  | bgeu rs1 rs2 imm => exact effect_branch _ imm s
  | lb _ _ _ => exact effect_nop s
  | lh _ _ _ => exact effect_nop s
  | lw rd rs1 imm => exact effect_execLw rd rs1 imm s
  | lbu _ _ _ => exact effect_nop s
  | lhu _ _ _ => exact effect_nop s
  | sb _ _ _ => exact effect_nop s
  | sh _ _ _ => exact effect_nop s
  | sw rs1 rs2 imm => exact effect_execSw rs1 rs2 imm s
  | addi rd _ _ => exact effect_writeResult rd _ s
  | slti rd _ _ => exact effect_writeResult rd _ s
  | sltiu rd _ _ => exact effect_writeResult rd _ s
  | xori rd _ _ => exact effect_writeResult rd _ s
  | ori rd _ _ => exact effect_writeResult rd _ s
  | andi rd _ _ => exact effect_writeResult rd _ s
  | slli rd _ _ => exact effect_shiftByMode _ rd _ s
  | srli rd _ _ => exact effect_shiftByMode _ rd _ s
  | srai rd _ _ => exact effect_shiftByMode _ rd _ s
  | add rd _ _ => exact effect_writeResult rd _ s
  | sub rd _ _ => exact effect_writeResult rd _ s
  | sll rd _ _ => exact effect_writeResult rd _ s
  | slt rd _ _ => exact effect_writeResult rd _ s
  | sltu rd _ _ => exact effect_writeResult rd _ s
  | xor rd _ _ => exact effect_writeResult rd _ s
  | srl rd _ _ => exact effect_writeResult rd _ s
  | sra rd _ _ => exact effect_writeResult rd _ s
  | or rd _ _ => exact effect_writeResult rd _ s
  | and rd _ _ => exact effect_writeResult rd _ s
  | fence _ _ _ _ => exact effect_nop s
  | ecall _ _ => exact effect_nop s
  | ebreak _ _ => exact ⟨_, rfl, rfl, List.prefix_rfl, Or.inl rfl, Or.inr (Or.inl rfl)⟩
  | csrrw rd rs1 csr => exact effect_csrOp csrOverwrite (fun u => u.readReg rs1) rd csr s
  | csrrs rd rs1 csr => exact effect_csrOp csrSetBits (fun u => u.readReg rs1) rd csr s
  | csrrc rd rs1 csr => exact effect_csrOp csrClearBits (fun u => u.readReg rs1) rd csr s
  | csrrwi rd uimm csr => exact effect_csrOp csrOverwrite (fun _ => zext uimm) rd csr s
  | csrrsi rd uimm csr => exact effect_csrOp csrSetBits (fun _ => zext uimm) rd csr s
  | csrrci rd uimm csr => exact effect_csrOp csrClearBits (fun _ => zext uimm) rd csr s

theorem effect_unknownSubOp (inst : Word) (s : State) : ∃ t, unknownSubOp inst s = .next t ∧ Effect s t :=
  ⟨_, rfl, by simp, by simp, by simp, by simp⟩

theorem effect_unknownWritesZero (inst : Word) (rd : RegIdx) (s : State) :
    ∃ t, unknownWritesZero inst rd s = .next t ∧ Effect s t :=
  ⟨_, rfl, by simp, by simp, by simp, by simp⟩

/-- What every unrecognized word can do (R87). -/
theorem execUnrecognized_effect (u : Unrecognized) (inst : Word) (s : State) :
    ∃ t, execUnrecognized u inst s = .next t ∧ Effect s t := by
  cases u with
  | opcode => exact ⟨_, rfl, by simp, by simp, by simp, by simp⟩
  | branchSubOp => exact effect_unknownSubOp inst s
  | loadSubOp => exact effect_unknownSubOp inst s
  | storeSubOp => exact effect_unknownSubOp inst s
  | systemSubOp => exact effect_unknownSubOp inst s
  | opPair rd => exact effect_unknownWritesZero inst rd s
  | shiftImm rd =>
    unfold execUnrecognized
    cases h : s.cfg.shiftMode
    · exact effect_unknownSubOp inst s
    · exact effect_unknownWritesZero inst rd s
    · exact effect_unknownSubOp inst s

end Sys2Proof.Machine
end

