-- ==== Sys2Proof/Laws/PerInstr.lean ====
section
/-! SUPPORT. Every instruction's word fits its row of spec/opcode_table.json: under the row's mask it is the row's match. One
lemma a constructor. -/

namespace Sys2Proof.Laws.TableRow

/-- The row's "mask". -/
def mask : Instr → Word
  | .lui _ _ => 0x0000007F
  | .auipc _ _ => 0x0000007F
  | .jal _ _ => 0x0000007F
  | .jalr _ _ _ _ => 0x0000007F
  | .beq _ _ _ => 0x0000707F
  | .bne _ _ _ => 0x0000707F
  | .blt _ _ _ => 0x0000707F
  | .bge _ _ _ => 0x0000707F
  | .bltu _ _ _ => 0x0000707F
  | .bgeu _ _ _ => 0x0000707F
  | .lb _ _ _ => 0x0000707F
  | .lh _ _ _ => 0x0000707F
  | .lw _ _ _ => 0x0000707F
  | .lbu _ _ _ => 0x0000707F
  | .lhu _ _ _ => 0x0000707F
  | .sb _ _ _ => 0x0000707F
  | .sh _ _ _ => 0x0000707F
  | .sw _ _ _ => 0x0000707F
  | .addi _ _ _ => 0x0000707F
  | .slti _ _ _ => 0x0000707F
  | .sltiu _ _ _ => 0x0000707F
  | .xori _ _ _ => 0x0000707F
  | .ori _ _ _ => 0x0000707F
  | .andi _ _ _ => 0x0000707F
  | .slli _ _ _ => 0xFE00707F
  | .srli _ _ _ => 0xFE00707F
  | .srai _ _ _ => 0xFE00707F
  | .add _ _ _ => 0xFE00707F
  | .sub _ _ _ => 0xFE00707F
  | .sll _ _ _ => 0xFE00707F
  | .slt _ _ _ => 0xFE00707F
  | .sltu _ _ _ => 0xFE00707F
  | .xor _ _ _ => 0xFE00707F
  | .srl _ _ _ => 0xFE00707F
  | .sra _ _ _ => 0xFE00707F
  | .or _ _ _ => 0xFE00707F
  | .and _ _ _ => 0xFE00707F
  | .fence _ _ _ _ => 0x0000007F
  | .ecall _ _ => 0xFFF0707F
  | .ebreak _ _ => 0xFFF0707F
  | .csrrw _ _ _ => 0x0000707F
  | .csrrs _ _ _ => 0x0000707F
  | .csrrc _ _ _ => 0x0000707F
  | .csrrwi _ _ _ => 0x0000707F
  | .csrrsi _ _ _ => 0x0000707F
  | .csrrci _ _ _ => 0x0000707F

/-- The row's "match". -/
def pattern : Instr → Word
  | .lui _ _ => 0x00000037
  | .auipc _ _ => 0x00000017
  | .jal _ _ => 0x0000006F
  | .jalr _ _ _ _ => 0x00000067
  | .beq _ _ _ => 0x00000063
  | .bne _ _ _ => 0x00001063
  | .blt _ _ _ => 0x00004063
  | .bge _ _ _ => 0x00005063
  | .bltu _ _ _ => 0x00006063
  | .bgeu _ _ _ => 0x00007063
  | .lb _ _ _ => 0x00000003
  | .lh _ _ _ => 0x00001003
  | .lw _ _ _ => 0x00002003
  | .lbu _ _ _ => 0x00004003
  | .lhu _ _ _ => 0x00005003
  | .sb _ _ _ => 0x00000023
  | .sh _ _ _ => 0x00001023
  | .sw _ _ _ => 0x00002023
  | .addi _ _ _ => 0x00000013
  | .slti _ _ _ => 0x00002013
  | .sltiu _ _ _ => 0x00003013
  | .xori _ _ _ => 0x00004013
  | .ori _ _ _ => 0x00006013
  | .andi _ _ _ => 0x00007013
  | .slli _ _ _ => 0x00001013
  | .srli _ _ _ => 0x00005013
  | .srai _ _ _ => 0x40005013
  | .add _ _ _ => 0x00000033
  | .sub _ _ _ => 0x40000033
  | .sll _ _ _ => 0x00001033
  | .slt _ _ _ => 0x00002033
  | .sltu _ _ _ => 0x00003033
  | .xor _ _ _ => 0x00004033
  | .srl _ _ _ => 0x00005033
  | .sra _ _ _ => 0x40005033
  | .or _ _ _ => 0x00006033
  | .and _ _ _ => 0x00007033
  | .fence _ _ _ _ => 0x0000000F
  | .ecall _ _ => 0x00000073
  | .ebreak _ _ => 0x00100073
  | .csrrw _ _ _ => 0x00001073
  | .csrrs _ _ _ => 0x00002073
  | .csrrc _ _ _ => 0x00003073
  | .csrrwi _ _ _ => 0x00005073
  | .csrrsi _ _ _ => 0x00006073
  | .csrrci _ _ _ => 0x00007073

/-- The instruction's word fits its row of the opcode table. -/
def Statement (i : Instr) : Prop := encode i &&& mask i = pattern i

/-! The mask of a row keeps the fields the row fixes and clears the others. -/

theorem opcode_of_U (f : UFields) : encodeU f &&& 0x0000007F = encodeU ⟨0, 0, f.opcode⟩ := by
  apply BitVec.eq_of_getLsbD_eq
  intro i hi
  simp only [encodeU, BitVec.getLsbD_and, BitVec.getLsbD_append]
  interval_cases i <;> simp

theorem opcode_of_J (f : JFields) : encodeJ f &&& 0x0000007F = encodeJ ⟨0, 0, f.opcode⟩ := by
  apply BitVec.eq_of_getLsbD_eq
  intro i hi
  simp only [encodeJ, BitVec.getLsbD_extractLsb', BitVec.getLsbD_and, BitVec.getLsbD_append]
  interval_cases i <;> simp

theorem opcode_of_I (f : IFields) : encodeI f &&& 0x0000007F = encodeI ⟨0, 0, 0, 0, f.opcode⟩ := by
  apply BitVec.eq_of_getLsbD_eq
  intro i hi
  simp only [encodeI, BitVec.getLsbD_and, BitVec.getLsbD_append]
  interval_cases i <;> simp

theorem funct3_of_I (f : IFields) : encodeI f &&& 0x0000707F = encodeI ⟨0, 0, f.funct3, 0, f.opcode⟩ := by
  apply BitVec.eq_of_getLsbD_eq
  intro i hi
  simp only [encodeI, BitVec.getLsbD_and, BitVec.getLsbD_append]
  interval_cases i <;> simp

theorem funct3_of_S (f : SFields) : encodeS f &&& 0x0000707F = encodeS ⟨0, 0, 0, f.funct3, f.opcode⟩ := by
  apply BitVec.eq_of_getLsbD_eq
  intro i hi
  simp only [encodeS, BitVec.getLsbD_extractLsb', BitVec.getLsbD_and, BitVec.getLsbD_append]
  interval_cases i <;> simp

theorem funct3_of_B (f : BFields) : encodeB f &&& 0x0000707F = encodeB ⟨0, 0, 0, f.funct3, f.opcode⟩ := by
  apply BitVec.eq_of_getLsbD_eq
  intro i hi
  simp only [encodeB, BitVec.getLsbD_extractLsb', BitVec.getLsbD_and, BitVec.getLsbD_append]
  interval_cases i <;> simp

theorem imm_of_I (f : IFields) : encodeI f &&& 0xFFF0707F = encodeI ⟨f.imm, 0, f.funct3, 0, f.opcode⟩ := by
  apply BitVec.eq_of_getLsbD_eq
  intro i hi
  simp only [encodeI, BitVec.getLsbD_and, BitVec.getLsbD_append]
  interval_cases i <;> simp

theorem funct7_of_R (f : RFields) :
    encodeR f &&& 0xFE00707F = encodeR ⟨f.funct7, 0, 0, f.funct3, 0, f.opcode⟩ := by
  apply BitVec.eq_of_getLsbD_eq
  intro i hi
  simp only [encodeR, BitVec.getLsbD_and, BitVec.getLsbD_append]
  interval_cases i <;> simp

theorem funct7_of_shift (p : BitVec 7) (shamt rs1 rd : BitVec 5) (funct3 : BitVec 3) (op : BitVec 7) :
    encodeI ⟨p ++ shamt, rs1, funct3, rd, op⟩ &&& 0xFE00707F = encodeI ⟨p ++ 0#5, 0, funct3, 0, op⟩ := by
  apply BitVec.eq_of_getLsbD_eq
  intro i hi
  simp only [encodeI, BitVec.getLsbD_and, BitVec.getLsbD_append]
  interval_cases i <;> simp

theorem lui (rd : RegIdx) (imm : BitVec 20) :
    Statement (.lui rd imm) := (opcode_of_U _).trans (by simp only [pattern]; decide)
theorem auipc (rd : RegIdx) (imm : BitVec 20) :
    Statement (.auipc rd imm) := (opcode_of_U _).trans (by simp only [pattern]; decide)
theorem jal (rd : RegIdx) (imm : BitVec 21) :
    Statement (.jal rd imm) := (opcode_of_J _).trans (by simp only [pattern]; decide)
theorem jalr (rd rs1 : RegIdx) (funct3 : BitVec 3) (imm : BitVec 12) :
    Statement (.jalr rd rs1 funct3 imm) := (opcode_of_I _).trans (by simp only [pattern]; decide)
theorem beq (rs1 rs2 : RegIdx) (imm : BitVec 13) :
    Statement (.beq rs1 rs2 imm) := (funct3_of_B _).trans (by simp only [pattern]; decide)
theorem bne (rs1 rs2 : RegIdx) (imm : BitVec 13) :
    Statement (.bne rs1 rs2 imm) := (funct3_of_B _).trans (by simp only [pattern]; decide)
theorem blt (rs1 rs2 : RegIdx) (imm : BitVec 13) :
    Statement (.blt rs1 rs2 imm) := (funct3_of_B _).trans (by simp only [pattern]; decide)
theorem bge (rs1 rs2 : RegIdx) (imm : BitVec 13) :
    Statement (.bge rs1 rs2 imm) := (funct3_of_B _).trans (by simp only [pattern]; decide)
theorem bltu (rs1 rs2 : RegIdx) (imm : BitVec 13) :
    Statement (.bltu rs1 rs2 imm) := (funct3_of_B _).trans (by simp only [pattern]; decide)
theorem bgeu (rs1 rs2 : RegIdx) (imm : BitVec 13) :
    Statement (.bgeu rs1 rs2 imm) := (funct3_of_B _).trans (by simp only [pattern]; decide)
theorem lb (rd rs1 : RegIdx) (imm : BitVec 12) :
    Statement (.lb rd rs1 imm) := (funct3_of_I _).trans (by simp only [pattern]; decide)
theorem lh (rd rs1 : RegIdx) (imm : BitVec 12) :
    Statement (.lh rd rs1 imm) := (funct3_of_I _).trans (by simp only [pattern]; decide)
theorem lw (rd rs1 : RegIdx) (imm : BitVec 12) :
    Statement (.lw rd rs1 imm) := (funct3_of_I _).trans (by simp only [pattern]; decide)
theorem lbu (rd rs1 : RegIdx) (imm : BitVec 12) :
    Statement (.lbu rd rs1 imm) := (funct3_of_I _).trans (by simp only [pattern]; decide)
theorem lhu (rd rs1 : RegIdx) (imm : BitVec 12) :
    Statement (.lhu rd rs1 imm) := (funct3_of_I _).trans (by simp only [pattern]; decide)
theorem sb (rs1 rs2 : RegIdx) (imm : BitVec 12) :
    Statement (.sb rs1 rs2 imm) := (funct3_of_S _).trans (by simp only [pattern]; decide)
theorem sh (rs1 rs2 : RegIdx) (imm : BitVec 12) :
    Statement (.sh rs1 rs2 imm) := (funct3_of_S _).trans (by simp only [pattern]; decide)
theorem sw (rs1 rs2 : RegIdx) (imm : BitVec 12) :
    Statement (.sw rs1 rs2 imm) := (funct3_of_S _).trans (by simp only [pattern]; decide)
theorem addi (rd rs1 : RegIdx) (imm : BitVec 12) :
    Statement (.addi rd rs1 imm) := (funct3_of_I _).trans (by simp only [pattern]; decide)
theorem slti (rd rs1 : RegIdx) (imm : BitVec 12) :
    Statement (.slti rd rs1 imm) := (funct3_of_I _).trans (by simp only [pattern]; decide)
theorem sltiu (rd rs1 : RegIdx) (imm : BitVec 12) :
    Statement (.sltiu rd rs1 imm) := (funct3_of_I _).trans (by simp only [pattern]; decide)
theorem xori (rd rs1 : RegIdx) (imm : BitVec 12) :
    Statement (.xori rd rs1 imm) := (funct3_of_I _).trans (by simp only [pattern]; decide)
theorem ori (rd rs1 : RegIdx) (imm : BitVec 12) :
    Statement (.ori rd rs1 imm) := (funct3_of_I _).trans (by simp only [pattern]; decide)
theorem andi (rd rs1 : RegIdx) (imm : BitVec 12) :
    Statement (.andi rd rs1 imm) := (funct3_of_I _).trans (by simp only [pattern]; decide)
theorem slli (rd rs1 : RegIdx) (shamt : BitVec 5) :
    Statement (.slli rd rs1 shamt) := (funct7_of_shift _ _ _ _ _ _).trans (by simp only [pattern]; decide)
theorem srli (rd rs1 : RegIdx) (shamt : BitVec 5) :
    Statement (.srli rd rs1 shamt) := (funct7_of_shift _ _ _ _ _ _).trans (by simp only [pattern]; decide)
theorem srai (rd rs1 : RegIdx) (shamt : BitVec 5) :
    Statement (.srai rd rs1 shamt) := (funct7_of_shift _ _ _ _ _ _).trans (by simp only [pattern]; decide)
theorem add (rd rs1 rs2 : RegIdx) :
    Statement (.add rd rs1 rs2) := (funct7_of_R _).trans (by simp only [pattern]; decide)
theorem sub (rd rs1 rs2 : RegIdx) :
    Statement (.sub rd rs1 rs2) := (funct7_of_R _).trans (by simp only [pattern]; decide)
theorem sll (rd rs1 rs2 : RegIdx) :
    Statement (.sll rd rs1 rs2) := (funct7_of_R _).trans (by simp only [pattern]; decide)
theorem slt (rd rs1 rs2 : RegIdx) :
    Statement (.slt rd rs1 rs2) := (funct7_of_R _).trans (by simp only [pattern]; decide)
theorem sltu (rd rs1 rs2 : RegIdx) :
    Statement (.sltu rd rs1 rs2) := (funct7_of_R _).trans (by simp only [pattern]; decide)
theorem xor (rd rs1 rs2 : RegIdx) :
    Statement (.xor rd rs1 rs2) := (funct7_of_R _).trans (by simp only [pattern]; decide)
theorem srl (rd rs1 rs2 : RegIdx) :
    Statement (.srl rd rs1 rs2) := (funct7_of_R _).trans (by simp only [pattern]; decide)
theorem sra (rd rs1 rs2 : RegIdx) :
    Statement (.sra rd rs1 rs2) := (funct7_of_R _).trans (by simp only [pattern]; decide)
theorem or (rd rs1 rs2 : RegIdx) :
    Statement (.or rd rs1 rs2) := (funct7_of_R _).trans (by simp only [pattern]; decide)
theorem and (rd rs1 rs2 : RegIdx) :
    Statement (.and rd rs1 rs2) := (funct7_of_R _).trans (by simp only [pattern]; decide)
theorem fence (rd rs1 : RegIdx) (funct3 : BitVec 3) (imm : BitVec 12) :
    Statement (.fence rd rs1 funct3 imm) := (opcode_of_I _).trans (by simp only [pattern]; decide)
theorem ecall (rd rs1 : RegIdx) :
    Statement (.ecall rd rs1) := (imm_of_I _).trans (by simp only [pattern]; decide)
theorem ebreak (rd rs1 : RegIdx) :
    Statement (.ebreak rd rs1) := (imm_of_I _).trans (by simp only [pattern]; decide)
theorem csrrw (rd rs1 : RegIdx) (csr : BitVec 12) :
    Statement (.csrrw rd rs1 csr) := (funct3_of_I _).trans (by simp only [pattern]; decide)
theorem csrrs (rd rs1 : RegIdx) (csr : BitVec 12) :
    Statement (.csrrs rd rs1 csr) := (funct3_of_I _).trans (by simp only [pattern]; decide)
theorem csrrc (rd rs1 : RegIdx) (csr : BitVec 12) :
    Statement (.csrrc rd rs1 csr) := (funct3_of_I _).trans (by simp only [pattern]; decide)
theorem csrrwi (rd : RegIdx) (uimm : BitVec 5) (csr : BitVec 12) :
    Statement (.csrrwi rd uimm csr) := (funct3_of_I _).trans (by simp only [pattern]; decide)
theorem csrrsi (rd : RegIdx) (uimm : BitVec 5) (csr : BitVec 12) :
    Statement (.csrrsi rd uimm csr) := (funct3_of_I _).trans (by simp only [pattern]; decide)
theorem csrrci (rd : RegIdx) (uimm : BitVec 5) (csr : BitVec 12) :
    Statement (.csrrci rd uimm csr) := (funct3_of_I _).trans (by simp only [pattern]; decide)

end Sys2Proof.Laws.TableRow
end

