-- ==== Sys2Proof/Laws/Step.lean ====
section
/-! SUPPORT. What a step can do, said once: where it comes from, and what an instruction or an unrecognized word leaves of the
lifecycle state, the pc and memory. -/

namespace Sys2Proof.Machine

/-- The word a machine is about to execute is the word it fetches. -/
theorem fetch_of_about {s : State} {inst : Word} (h : s.About inst) : s.fetch = some inst := by
  obtain ⟨_, hi, hw⟩ := h
  rw [State.fetch, memRead_of_inRange s _ hi, hw]

/-- The step of a machine about to execute `inst`. -/
theorem step_of_about {s : State} {inst : Word} (h : s.About inst) : step s = executeWord inst s := by
  simp only [step, h.1, fetch_of_about h]

/-- A machine is about to execute one word only. -/
theorem about_unique {s : State} {v w : Word} (hv : s.About v) (hw : s.About w) : v = w := hv.2.2.symm.trans hw.2.2

/-- A step that answers a next state ran: it took the fetch fault, or executed the word at the pc. -/
theorem step_cases {s t : State} (h : step s = .next t) :
    s.run = .running ∧
    ((s.inRange s.pc = false ∧ t = { s with run := .faulted (.outOfBounds s.pc) }) ∨
      ∃ inst, s.About inst ∧ executeWord inst s = .next t) := by
  cases hr : s.run <;> simp only [step, hr] at h <;> try cases h
  refine ⟨rfl, ?_⟩
  cases hi : s.inRange s.pc
  · rw [State.fetch, memRead_of_outside s _ hi] at h
    simp only [raise_eq] at h
    cases h
    exact .inl ⟨rfl, rfl⟩
  · rw [State.fetch, memRead_of_inRange s _ hi] at h
    exact .inr ⟨_, ⟨hr, hi, rfl⟩, h⟩

/-- What executing a word can do. -/
theorem executeWord_effect (inst : Word) (s : State) : ∃ t, executeWord inst s = .next t ∧ Effect s t := by
  unfold executeWord
  split
  · exact exec_effect _ s
  · exact execUnrecognized_effect _ _ s

/-- What a step can do. -/
theorem step_effect {s t : State} (h : step s = .next t) : Effect s t := by
  obtain ⟨_, ⟨hi, rfl⟩ | ⟨w, _, h⟩⟩ := step_cases h
  · exact ⟨rfl, List.prefix_rfl, .inl rfl, .inr (.inr ⟨_, hi, rfl⟩)⟩
  · obtain ⟨u, h1, h2⟩ := executeWord_effect w s
    rw [h1] at h
    cases h
    exact h2

/-- An instruction takes OutOfBounds and does nothing else, which only LW and SW can; or it completes: EBREAK halts and no other
changes the lifecycle state, all but the jumps and branches go on to the next word, and memory changes by an SW in range only. -/
theorem exec_cases {i : Instr} {s t : State} (h : exec i s = .next t) :
    (∃ r rs1 imm, (i = .lw r rs1 imm ∨ i = .sw rs1 r imm) ∧ s.inRange (s.effAddr rs1 imm) = false ∧
      t = { s with run := .faulted (.outOfBounds (s.effAddr rs1 imm)) }) ∨
    (t.run = (if ∃ rd rs1, i = .ebreak rd rs1 then .halted else s.run) ∧
      (isControlTransfer i = false → t.pc = s.pc + 1) ∧
      (t.mem = s.mem ∨ ∃ rs1 rs2 imm, i = .sw rs1 rs2 imm ∧ s.inRange (s.effAddr rs1 imm) = true ∧
        t.mem = memWriteWord s.mem (s.effAddr rs1 imm).toInt.toNat (s.readReg rs2))) := by
  cases i
  case lw => rw [exec, execLw_eq] at h; split at h <;> cases h <;> simp_all
  case sw => rw [exec, execSw_eq] at h; split at h <;> cases h <;> simp_all
  case jal => rw [exec, execJal_eq] at h; cases h; simp [isControlTransfer]
  case jalr => rw [exec, execJalr_eq] at h; cases h; simp [isControlTransfer]
  case slli => rw [exec, execSlli, shiftByMode_eq] at h; split at h <;> cases h <;> simp
  case srli => rw [exec, execSrli, shiftByMode_eq] at h; split at h <;> cases h <;> simp
  case srai => rw [exec, execSrai, shiftByMode_eq] at h; split at h <;> cases h <;> simp
  case beq => rw [exec, execBeq, branch_eq] at h; cases h; simp [isControlTransfer]
  case bne => rw [exec, execBne, branch_eq] at h; cases h; simp [isControlTransfer]
  case blt => rw [exec, execBlt, branch_eq] at h; cases h; simp [isControlTransfer]
  case bge => rw [exec, execBge, branch_eq] at h; cases h; simp [isControlTransfer]
  case bltu => rw [exec, execBltu, branch_eq] at h; cases h; simp [isControlTransfer]
  case bgeu => rw [exec, execBgeu, branch_eq] at h; cases h; simp [isControlTransfer]
  case csrrw => rw [exec, execCsrrw, csrOp_eq] at h; cases h; simp
  case csrrs => rw [exec, execCsrrs, csrOp_eq] at h; cases h; simp
  case csrrc => rw [exec, execCsrrc, csrOp_eq] at h; cases h; simp
  case csrrwi => rw [exec, execCsrrwi, csrOp_eq] at h; cases h; simp
  case csrrsi => rw [exec, execCsrrsi, csrOp_eq] at h; cases h; simp
  case csrrci => rw [exec, execCsrrci, csrOp_eq] at h; cases h; simp
  all_goals (cases h; simp)

/-- An unrecognized word goes on to the next word, and changes neither the lifecycle state nor memory. -/
theorem execUnrecognized_cases {u : Unrecognized} {inst : Word} {s t : State} (h : execUnrecognized u inst s = .next t) :
    t.run = s.run ∧ t.pc = s.pc + 1 ∧ t.mem = s.mem := by
  cases u
  case shiftImm => unfold execUnrecognized at h; simp only at h; split at h <;> cases h <;> simp
  all_goals (cases h; simp)

end Sys2Proof.Machine
end

