-- ==== Sys2Proof/Tests/Slice0.lean ====
section
/-! SUPPORT. Tests: the expected values are those of spec/95_test_vectors.md (the id of the vector stands in each comment), whose
conventions are `State.reset`'s parameters, and witnesses that the hypotheses of the statements can be met. -/

namespace Sys2Proof.Machine

/-! ## WellFormed: ill-formed terms are refused (spec/30_encoding.md R75, R77) -/

theorem test_wf_branch_offset : branchOffsetOk 0x008 = true ∧ branchOffsetOk 0x009 = false := by decide
theorem test_wf_jump_offset : jumpOffsetOk 0x1FFFF8 = true ∧ jumpOffsetOk 0x000001 = false := by decide
theorem test_wf_refuses_odd_branches :
    (Instr.beq 1 2 7).wf = false ∧ (Instr.bne 1 2 7).wf = false ∧ (Instr.blt 1 2 7).wf = false ∧
    (Instr.bge 1 2 7).wf = false ∧ (Instr.bltu 1 2 7).wf = false ∧ (Instr.bgeu 1 2 7).wf = false := by decide
theorem test_wf_refuses_odd_jal : (Instr.jal 1 5).wf = false := by decide

/-! ## Decoding: every constructor, by a word written out from its encoding (R72 to R82) -/

/-- Does `w` decode to `i`, and does `i` encode to `w`? -/
def codes (w : Word) (i : Instr) : Bool := decide (decode w = .ok i) && decide (encode i = w)

theorem test_decode_upper :
    codes 0x123450B7 (.lui 1 0x12345) ∧ codes 0x00001297 (.auipc 5 1) := by decide

theorem test_decode_jumps :
    codes 0xFF9FF06F (.jal 0 0x1FFFF8) ∧ codes 0x7FFFF0EF (.jal 1 0x0FFFFE) ∧ codes 0x064100E7 (.jalr 1 2 0 100) ∧
    codes 0x000130E7 (.jalr 1 2 3 0) := by decide

theorem test_decode_branches :
    codes 0x00208463 (.beq 1 2 8) ∧ codes 0xFE209EE3 (.bne 1 2 0x1FFC) ∧ codes 0x8062C063 (.blt 5 6 0x1000) ∧
    codes 0x7E41DFE3 (.bge 3 4 0x0FFE) ∧ codes 0x0020E463 (.bltu 1 2 8) ∧ codes 0x0000F463 (.bgeu 1 0 8) := by decide

theorem test_decode_loads :
    codes 0x00410183 (.lb 3 2 4) ∧ codes 0x00411183 (.lh 3 2 4) ∧ codes 0xFFF12183 (.lw 3 2 0xFFF) ∧
    codes 0x00414183 (.lbu 3 2 4) ∧ codes 0x00415183 (.lhu 3 2 4) := by decide

theorem test_decode_stores :
    codes 0x00310223 (.sb 2 3 4) ∧ codes 0x00311223 (.sh 2 3 4) ∧ codes 0xFE312FA3 (.sw 2 3 0xFFF) ∧
    codes 0x7FFFAFA3 (.sw 31 31 0x7FF) := by decide

theorem test_decode_alu_immediate :
    codes 0x7FF10093 (.addi 1 2 0x7FF) ∧ codes 0xFFF0A193 (.slti 3 1 0xFFF) ∧ codes 0x0010B193 (.sltiu 3 1 1) ∧
    codes 0x5550C193 (.xori 3 1 0x555) ∧ codes 0x8000E193 (.ori 3 1 0x800) ∧ codes 0x0FF0F193 (.andi 3 1 0xFF) ∧
    codes 0x01F09193 (.slli 3 1 31) ∧ codes 0x0040D193 (.srli 3 1 4) ∧ codes 0x41F0D193 (.srai 3 1 31) := by decide

theorem test_decode_alu_register :
    codes 0x002081B3 (.add 3 1 2) ∧ codes 0x402081B3 (.sub 3 1 2) ∧ codes 0x002091B3 (.sll 3 1 2) ∧
    codes 0x0020A1B3 (.slt 3 1 2) ∧ codes 0x002031B3 (.sltu 3 0 2) ∧ codes 0x0020C1B3 (.xor 3 1 2) ∧
    codes 0x0020D1B3 (.srl 3 1 2) ∧ codes 0x4020D1B3 (.sra 3 1 2) ∧ codes 0x0020E1B3 (.or 3 1 2) ∧
    codes 0x0020F1B3 (.and 3 1 2) := by decide

theorem test_decode_system :
    codes 0x8330000F (.fence 0 0 0 0x833) ∧ codes 0x00000073 (.ecall 0 0) ∧ codes 0x001000F3 (.ebreak 1 0) := by decide

theorem test_decode_csr :
    codes 0x001111F3 (.csrrw 3 2 1) ∧ codes 0xC00021F3 (.csrrs 3 0 0xC00) ∧ codes 0x001131F3 (.csrrc 3 2 1) ∧
    codes 0x001FD1F3 (.csrrwi 3 31 1) ∧ codes 0x00106073 (.csrrsi 0 0 1) ∧ codes 0x0012F1F3 (.csrrci 3 5 1) := by decide

/-- B21, B22, M25 to M28, S8 to S10, A27 to A29, I32, X1 to X5: the words the table lists no instruction for. -/
theorem test_decode_unrecognized_opcode :
    decode 0x00000000 = .error .opcode ∧ decode 0xFFFFFFFF = .error .opcode ∧ decode 0x0000000B = .error .opcode ∧
    decode 0x00000001 = .error .opcode := by decide
theorem test_decode_unrecognized_sub_op :
    decode 0x0020A463 = .error .branchSubOp ∧ decode 0x00413183 = .error .loadSubOp ∧
    decode 0x00317223 = .error .storeSubOp ∧ decode 0x30200073 = .error .systemSubOp ∧
    decode 0x00004073 = .error .systemSubOp ∧ decode 0x402091B3 = .error (.opPair 3) ∧
    decode 0x022081B3 = .error (.opPair 3) ∧ decode 0x40409193 = .error (.shiftImm 3) := by decide

/-! ## Field decoders (E1 to E18) and byte order (S11) -/

theorem test_fields_r : decodeR 0x4020D1B3 = ⟨32, 2, 1, 5, 3, opOp⟩ := by decide
theorem test_fields_i : (decodeI 0xFFF0A193).imm = 0xFFF ∧ sext (decodeI 0x80010093).imm = 0xFFFFF800 := by decide
theorem test_fields_s : decodeS 0x80112023 = ⟨0x800, 1, 2, 2, opStore⟩ ∧ (decodeS 0x7FFFAFA3).imm = 0x7FF := by decide
theorem test_fields_b :
    (decodeB 0x00208463).imm = 8 ∧ (decodeB 0xFE209EE3).imm = 0x1FFC ∧ (decodeB 0x7E41DFE3).imm = 0x0FFE ∧
    sext (decodeB 0x8062C063).imm = 0xFFFFF000 ∧ (decodeB 0x00000363).imm = 6 := by decide
theorem test_fields_u : decodeU 0xFFFFF0B7 = ⟨0xFFFFF, 1, opLui⟩ := by decide
theorem test_fields_j :
    (decodeJ 0x008000EF).imm = 8 ∧ (decodeJ 0xFF9FF06F).imm = 0x1FFFF8 ∧ (decodeJ 0x7FFFF0EF).imm = 0x0FFFFE ∧
    sext (decodeJ 0x800000EF).imm = 0xFFF00000 := by decide
theorem test_byte_order : assembleWord 0x73 0x00 0x10 0x00 = 0x00100073 := by decide
theorem test_decode_bytes : decodeBytes 0x13 0x01 0x50 0x00 = .ok (.addi 2 0 5) := by decide

/-! ## One step: at most two vectors an instruction -/

/-- A machine of spec/95's conventions before the step: running at `p`, `inst` the word there, the registers `rs`. -/
def boot (p : Word) (inst : Nat) (rs : List (RegIdx × Word)) : State :=
  rs.foldl (fun s r => s.writeReg r.1 r.2) (State.withFetchWord { State.reset with pc := p } 32 inst)

/-- Does the step answer a next state of which `p` holds? -/
def after (s : State) (p : State → Bool) : Bool :=
  match step s with
  | .next t => p t
  | .fault _ => false
  | .refused _ => false

/-- The step leaves `v` in x`r`, goes to `p`, and runs on with nothing in the log. -/
def leaves (s : State) (r : RegIdx) (v p : Word) : Bool :=
  after s fun t => decide (t.readReg r = v ∧ t.pc = p ∧ t.run = .running ∧ t.log = [])

/-- The machine in another OPIMM_SHIFT_MODE. -/
def shifting (m : ShiftMode) (s : State) : State := { s with cfg := { s.cfg with shiftMode := m } }

/-- The machine in STRICT_MODE. -/
def strict (s : State) : State := { s with cfg := { s.cfg with strictMode := true } }

/-- The machine with LINK_BEFORE_READ false. -/
def readFirst (s : State) : State := { s with cfg := { s.cfg with linkBeforeRead := false } }

/-- The machine with one memory word given. -/
def holding (i : Nat) (v : Word) (s : State) : State := { s with mem := memWriteWord s.mem i v }

/-- The machine with the Controller's next answer given. -/
def answering (v : Word) (s : State) : State := { s with controller := ⟨[v], 0⟩ }

theorem test_lui_keeps_low : leaves (boot 10 0x123450B7 [(1, 0xABC)]) 1 0x12345ABC 11 = true := by decide -- U1
theorem test_lui_x0 : leaves (boot 10 0xFFFFF037 []) 0 0 11 = true := by decide -- U5
theorem test_auipc_word_pc : leaves (boot 3 0x00001297 []) 5 0x1003 4 = true := by decide -- U6
theorem test_auipc_negative : leaves (boot 10 0xFFFFF297 []) 5 0xFFFFF00A 11 = true := by decide -- U7

theorem test_jal_truncates : leaves (boot 10 0xFFBFF0EF []) 1 0xE 9 = true := by decide -- J7
theorem test_jal_wraps : leaves (boot 5 0xFD5FF0EF []) 1 9 0xFFFFFFFA = true := by decide -- J9
theorem test_jalr_link_first : leaves (boot 10 0x000080E7 [(1, 3)]) 1 0xE 25 = true := by decide -- J14
theorem test_jalr_read_first : leaves (readFirst (boot 10 0x000080E7 [(1, 3)])) 1 0xE 13 = true := by decide -- J15
theorem test_beq_taken : leaves (boot 10 0xFE208DE3 [(1, 1), (2, 1)]) 1 1 9 = true := by decide -- B5
theorem test_beq_not_taken : leaves (boot 10 0x00208463 [(1, 7), (2, 8)]) 1 7 11 = true := by decide -- B2
theorem test_bne_taken : leaves (boot 10 0xFE209EE3 [(1, 1)]) 1 1 9 = true := by decide -- B6
theorem test_bne_not_taken : leaves (boot 10 0x00109463 [(1, 5)]) 1 5 11 = true := by decide -- B8
theorem test_blt_signed : leaves (boot 10 0x0020C463 [(1, 0x80000000), (2, 0x7FFFFFFF)]) 3 0 12 = true := by decide -- B10
theorem test_blt_equal : leaves (boot 10 0x0020C463 [(1, 5), (2, 5)]) 3 0 11 = true := by decide -- B11
theorem test_bge_signed : leaves (boot 10 0x0020D463 [(1, 0xFFFFFFFF)]) 3 0 11 = true := by decide -- B12
theorem test_bge_equal : leaves (boot 10 0x0020D463 [(1, 5), (2, 5)]) 3 0 12 = true := by decide -- B13
theorem test_bltu_unsigned : leaves (boot 10 0x00116463 [(1, 0xFFFFFFFF)]) 3 0 12 = true := by decide -- B16
theorem test_bltu_not : leaves (boot 10 0x0020E463 [(1, 0xFFFFFFFF)]) 3 0 11 = true := by decide -- B15
theorem test_bgeu_unsigned : leaves (boot 10 0x0020F463 [(1, 0xFFFFFFFF)]) 3 0 12 = true := by decide -- B18
theorem test_bgeu_not : leaves (boot 10 0x00107463 [(1, 1)]) 3 0 11 = true := by decide -- B19

theorem test_lw_negative_offset : -- M2
    leaves (holding 7 0x12345678 (boot 10 0xFFF12183 [(2, 8)])) 3 0x12345678 11 = true := by decide
theorem test_lw_fault : after (boot 10 0x00012003 [(2, 0x64)]) (fun t => -- M7
    decide (t = { boot 10 0x00012003 [(2, 0x64)] with run := .faulted (.outOfBounds 0x64) })) = true := by decide
theorem test_sw_word : after (boot 10 0x80312023 [(2, 0x800), (3, 0xAB)]) (fun t => -- M14
    decide (memReadWord t.mem 0 = 0xAB ∧ memReadWord t.mem 1 = 0 ∧ t.pc = 11)) = true := by decide
theorem test_sw_fault : after (boot 10 0x00312023 [(2, 0x40), (3, 1)]) (fun t => -- M13
    decide (t = { boot 10 0x00312023 [(2, 0x40), (3, 1)] with run := .faulted (.outOfBounds 0x40) })) = true := by decide
theorem test_lb : leaves (boot 10 0x00010183 [(2, 0x3E8), (3, 5)]) 3 5 11 = true := by decide -- M18
theorem test_lh : leaves (holding 12 1 (boot 10 0x00411183 [(2, 8), (3, 5)])) 3 5 11 = true := by decide -- M19
theorem test_lbu : leaves (holding 12 1 (boot 10 0x00414183 [(2, 8), (3, 5)])) 3 5 11 = true := by decide -- M20
theorem test_lhu : leaves (holding 12 1 (boot 10 0x00415183 [(2, 8), (3, 5)])) 3 5 11 = true := by decide -- M21
theorem test_sb : after (boot 10 0x00310023 [(2, 0x3E8), (3, 0xFF)]) (fun t => -- M23
    decide (t.mem = (boot 10 0x00310023 []).mem ∧ t.pc = 11 ∧ t.run = .running)) = true := by decide
theorem test_sh : after (boot 10 0x00311223 [(2, 8), (3, 0xFF)]) (fun t => -- M24
    decide (memReadWord t.mem 12 = 0 ∧ t.pc = 11)) = true := by decide

theorem test_addi_wraps : leaves (boot 10 0x00108193 [(1, 0x7FFFFFFF)]) 3 0x80000000 11 = true := by decide -- I2
theorem test_addi_negative : leaves (boot 10 0x80008193 [(1, 0x80000000)]) 3 0x7FFFF800 11 = true := by decide -- I4
theorem test_slti_negative : leaves (boot 10 0xFFF0A193 [(1, 0xFFFFFFFE)]) 3 1 11 = true := by decide -- I8
theorem test_slti_not : leaves (boot 10 0x8000A193 [(1, 0x7FFFFFFF)]) 3 0 11 = true := by decide -- I11
theorem test_sltiu_extended : leaves (boot 10 0xFFF0B193 [(1, 0xFFFFFFFE)]) 3 1 11 = true := by decide -- I12
theorem test_sltiu_not : leaves (boot 10 0x0000B193 [(1, 0xFFFFFFFF)]) 3 0 11 = true := by decide -- I16
theorem test_xori : leaves (boot 10 0xFFF0C193 [(1, 0xFF00)]) 3 0xFFFF00FF 11 = true := by decide -- I17
theorem test_ori : leaves (boot 10 0x8000E193 [(1, 1)]) 3 0xFFFFF801 11 = true := by decide -- I20
theorem test_andi : leaves (boot 10 0xFF00F193 [(1, 0x12345678)]) 3 0x12345670 11 = true := by decide -- I23
theorem test_slli_standard : -- I28
    leaves (shifting .standard (boot 10 0x01F09193 [(1, 3)])) 3 0x80000000 11 = true := by decide
theorem test_slli_noop : leaves (boot 10 0x00409193 [(1, 1), (3, 9)]) 3 9 11 = true := by decide -- I24
theorem test_srli_standard : -- I29
    leaves (shifting .standard (boot 10 0x0040D193 [(1, 0x80000000)])) 3 0x08000000 11 = true := by decide
theorem test_srai_standard : -- I30
    leaves (shifting .standard (boot 10 0x4040D193 [(1, 0x80000000)])) 3 0xF8000000 11 = true := by decide
theorem test_srai_zero : -- I33
    leaves (shifting .zero (boot 10 0x4040D193 [(1, 0x80000000), (3, 9)])) 3 0 11 = true := by decide

theorem test_add_wraps : leaves (boot 10 0x002081B3 [(1, 0x7FFFFFFF), (2, 1)]) 3 0x80000000 11 = true := by decide -- A1
theorem test_sub_borrows : leaves (boot 10 0x402081B3 [(1, 0), (2, 1)]) 3 0xFFFFFFFF 11 = true := by decide -- A5
theorem test_sub_overflows : leaves (boot 10 0x402081B3 [(1, 0x80000000), (2, 1)]) 3 0x7FFFFFFF 11 = true := by decide -- A6
theorem test_sll_low_five : leaves (boot 10 0x002091B3 [(1, 1), (2, 0x21)]) 3 2 11 = true := by decide -- A8
theorem test_sll_31 : leaves (boot 10 0x002091B3 [(1, 1), (2, 0x1F)]) 3 0x80000000 11 = true := by decide -- A9
theorem test_slt_negative : leaves (boot 10 0x0020A1B3 [(1, 0xFFFFFFFF), (2, 0)]) 3 1 11 = true := by decide -- A11
theorem test_slt_not : leaves (boot 10 0x0020A1B3 [(1, 0x7FFFFFFF), (2, 0x80000000)]) 3 0 11 = true := by decide -- A12
theorem test_sltu_not : leaves (boot 10 0x0020B1B3 [(1, 0xFFFFFFFF), (2, 0)]) 3 0 11 = true := by decide -- A14
theorem test_sltu_below : leaves (boot 10 0x002031B3 [(1, 0), (2, 5)]) 3 1 11 = true := by decide -- A15
theorem test_xor : leaves (boot 10 0x0020C1B3 [(1, 0xFF00FF00), (2, 0x0FF00FF0)]) 3 0xF0F0F0F0 11 = true := by decide -- A17
theorem test_srl : leaves (boot 10 0x0020D1B3 [(1, 0x80000000), (2, 4)]) 3 0x08000000 11 = true := by decide -- A19
theorem test_srl_32 : leaves (boot 10 0x0020D1B3 [(1, 0x80000000), (2, 0x20)]) 3 0x80000000 11 = true := by decide -- A20
theorem test_sra : leaves (boot 10 0x4020D1B3 [(1, 0x80000000), (2, 0x1F)]) 3 0xFFFFFFFF 11 = true := by decide -- A23
theorem test_sra_low_five : leaves (boot 10 0x4020D1B3 [(1, 0x7FFFFFFF), (2, 0x24)]) 3 0x07FFFFFF 11 = true := by decide -- A24
theorem test_or : leaves (boot 10 0x0020E1B3 [(1, 0xF0), (2, 0xF)]) 3 0xFF 11 = true := by decide -- A25
theorem test_and : leaves (boot 10 0x0020F1B3 [(1, 0xF0F0), (2, 0xFF00)]) 3 0xF000 11 = true := by decide -- A26
theorem test_add_same : leaves (boot 10 0x001080B3 [(1, 0x15)]) 1 0x2A 11 = true := by decide -- A3

theorem test_fence : leaves (boot 10 0x0000100F []) 0 0 11 = true := by decide -- S2
theorem test_fence_tso : leaves (boot 10 0x8330000F []) 0 0 11 = true := by decide -- S3
theorem test_ecall : leaves (strict (boot 10 0x00000073 [])) 0 0 11 = true := by decide -- S5
theorem test_ebreak : after (boot 10 0x001000F3 [(1, 5)]) (fun t => -- S7
    decide (t = { boot 10 0x001000F3 [(1, 5)] with run := .halted, pc := 11 })) = true := by decide

/-- A CSR instruction at pc 10 leaves `old` in x`r` and the calls ReadCSR(a) -> old, WriteCSR(a, new) in the log. -/
def calls (s : State) (r : RegIdx) (a old new : Word) : Bool :=
  after s fun t => decide (t.readReg r = (if r = 0 then 0 else old) ∧ t.pc = 11 ∧ t.log = [.readCSR a old, .writeCSR a new])

theorem test_csrrw_link_first : calls (answering 0xF0 (boot 10 0x00111173 [(2, 0xF)])) 2 1 0xF0 0xF0 = true := by decide -- S13
theorem test_csrrw_read_first : -- S14
    calls (readFirst (answering 0xF0 (boot 10 0x00111173 [(2, 0xF)]))) 2 1 0xF0 0xF = true := by decide
theorem test_csrrs : calls (answering 0xF0 (boot 10 0x001121F3 [(2, 0xF)])) 3 1 0xF0 0xFF = true := by decide -- S15
theorem test_csrrs_high_address : -- S26
    calls (answering 0x77 (boot 10 0xC00021F3 [(2, 0xF)])) 3 0xC00 0x77 0x77 = true := by decide
theorem test_csrrc : calls (answering 0xFF (boot 10 0x001131F3 [(2, 0xF)])) 3 1 0xFF 0xF0 = true := by decide -- S18
theorem test_csrrc_same : calls (answering 0xFF (boot 10 0x00113173 [(2, 0xF)])) 2 1 0xFF 0 = true := by decide -- S19
theorem test_csrrwi : calls (answering 0xF0 (boot 10 0x001FD1F3 [(2, 0xF)])) 3 1 0xF0 0x1F = true := by decide -- S22
theorem test_csrrsi : calls (answering 0xF0 (boot 10 0x0012E1F3 [(2, 0xF)])) 3 1 0xF0 0xF5 = true := by decide -- S23
theorem test_csrrsi_x0 : calls (answering 0xF0 (boot 10 0x00106073 [(2, 0xF)])) 0 1 0xF0 0xF0 = true := by decide -- S24
theorem test_csrrci : calls (answering 0xFF (boot 10 0x0012F1F3 [(2, 0xF)])) 3 1 0xFF 0xFA = true := by decide -- S25

/-! ## Unrecognized words, lifecycle and construction -/

/-- The step writes 0 to x3 or leaves it, goes to 11 and records `e`. -/
def reports (s : State) (x3 : Word) (e : Event) : Bool :=
  after s fun t => decide (t.readReg 3 = x3 ∧ t.pc = 11 ∧ t.run = .running ∧ t.log = [e])

theorem test_strict_opcode : -- X2
    reports (strict (boot 10 0x00000000 [(3, 9)])) 9 (.unrecognizedInstruction 10 0x00000000) = true := by decide
theorem test_strict_branch : -- B22
    reports (strict (boot 10 0x0020B463 [(3, 9)])) 9 (.unrecognizedSubOp 10 0x0020B463) = true := by decide
theorem test_strict_load : -- M26
    reports (strict (boot 10 0x00416183 [(3, 9)])) 9 (.unrecognizedSubOp 10 0x00416183) = true := by decide
theorem test_strict_store : -- M27
    reports (strict (boot 10 0x00313223 [(3, 9)])) 9 (.unrecognizedSubOp 10 0x00313223) = true := by decide
theorem test_strict_op_pair : -- A29
    reports (strict (boot 10 0x0220C1B3 [(3, 9)])) 0 (.unrecognizedSubOp 10 0x0220C1B3) = true := by decide
theorem test_strict_shift : -- I27
    reports (strict (boot 10 0x00409193 [(1, 1), (3, 9)])) 9 (.unrecognizedSubOp 10 0x00409193) = true := by decide
theorem test_strict_wfi : -- S8
    reports (strict (boot 10 0x10500073 [(3, 9)])) 9 (.unrecognizedSubOp 10 0x10500073) = true := by decide
theorem test_strict_shift_word : -- I32
    reports (strict (shifting .standard (boot 10 0x40409193 [(3, 9)]))) 9 (.unrecognizedSubOp 10 0x40409193) = true := by decide
theorem test_quiet_mul : leaves (boot 10 0x022081B3 [(1, 6), (2, 7), (3, 9)]) 3 0 11 = true := by decide -- A27
theorem test_quiet_zero_word : leaves (boot 10 0x00000000 [(3, 9)]) 3 9 11 = true := by decide -- X1

theorem test_fetch_fault : after (startAtPC 64 State.reset) (fun t => -- F1
    decide (t = { State.reset with pc := 64, run := .faulted (.outOfBounds 64) })) = true := by decide
theorem test_fetch_fault_negative : after (startAtPC 0xFFFFFFFF State.reset) (fun t => -- F2
    decide (t.run = .faulted (.outOfBounds 0xFFFFFFFF) ∧ t.pc = 0xFFFFFFFF)) = true := by decide
theorem test_start_after_halt : -- F8
    startAtPC 0 { boot 4 0 [(1, 5)] with run := .halted } = { boot 4 0 [(1, 5)] with run := .running, pc := 0 } := by decide
theorem test_idle_is_not_running : isRunning State.reset = false := by decide -- F7

/-- Construction of MEM_WORDS = 2 (F11, F13), or of the defaults. -/
def build (n : Nat) (image : List Byte) : Except ConstructError State :=
  construct { Config.default with memWords := n } ⟨[], 0⟩ image

theorem test_construct_13 : -- F9, S5
    build 64 [0x13, 0, 0, 0, 0x13, 0, 0, 0, 0x13, 0, 0, 0, 0x73] = .error .malformedImage := by decide
theorem test_construct_empty : build 64 [] = .ok State.reset := by decide -- F10
theorem test_construct_truncates : -- F11
    build 2 [1, 0, 0, 0, 2, 0, 0, 0, 3, 0, 0, 0] = .ok
      { State.initial { Config.default with memWords := 2 } ⟨[], 0⟩ with
        mem := [(0, 1), (4, 2)], log := [.imageTruncated] } := by decide
theorem test_construct_words : -- F12
    (build 64 [0x13, 0x01, 0x50, 0x00, 0x73, 0x00, 0x10, 0x00]).map (fun s => (memReadWord s.mem 0, memReadWord s.mem 1)) =
      .ok (0x00500113, 0x00100073) := by decide
theorem test_construct_length_first : -- F13
    build 2 [1, 0, 0, 0, 2, 0, 0, 0, 3, 0, 0, 0, 4] = .error .malformedImage := by decide

/-! ## The host's entry points -/

theorem test_decode_table_word : decodeTableWord 32 0x00500113 = some (.addi 2 0 5) := by decide
theorem test_first_instruction : -- S1
    after (State.reset.withFetchWord 32 0x00500113) (fun t => decide (t.readReg 2 = 5 ∧ t.pc = 1)) = true := by decide

/-! ## Memory and registers -/

theorem test_x0_discards : (State.reset.writeReg 0 5).readReg 0 = 0 := by decide -- S7
theorem test_mem_canonical : memWriteWord (memWriteWord [] 3 0x01000002) 3 0 = [] := by decide
theorem test_mem_little_endian : memWriteWord [] 1 0x00100073 = [(4, 0x73), (6, 0x10)] := by decide


/-! ## Witnesses: the hypotheses of each statement, met together, at the boundaries of each clause -/

/-- DecodeOfEncode, EncodeOfDecode: the extreme offsets and immediates. -/
theorem test_witness_encode :
    (Instr.jal 31 0x100000).wf = true ∧ (Instr.bgeu 31 0 0x1FFE).wf = true ∧ decode 0xFE20FFE3 = .ok (.bgeu 1 2 0x1FFE) ∧
    decode 0xFFFFFFEF = .ok (.jal 31 0x1FFFFE) := by decide

/-- StepRunsDecodedInstruction, PcAdvancesByOne, OnlyDestinationWritten: an ADDI at the last memory word, and at the first. -/
theorem test_witness_step :
    (boot 63 0x00500113 []).About 0x00500113 ∧ (boot 0 0x00500113 []).About 0x00500113 ∧
    decode 0x00500113 = .ok (.addi 2 0 5) ∧ isControlTransfer (.addi 2 0 5) = false ∧ destOf (.addi 2 0 5) ≠ some 3 ∧
    after (boot 63 0x00500113 []) (fun t => decide (badStop t = false ∧ t.pc = 64)) = true := by decide

/-- PcAdvancesByOne for an unrecognized word, whose decoding gives no instruction, and for EBREAK. -/
theorem test_witness_advance :
    (boot 10 0 []).About 0 ∧ decode 0 = .error .opcode ∧ isControlTransfer (.ebreak 0 0) = false ∧
    after (boot 10 0 []) (fun t => !badStop t) = true := by decide

/-- UnknownOpcodeIsNop. -/
theorem test_witness_unknown_opcode :
    (boot 10 0x0000000B []).About 0x0000000B ∧ opcodeOf 0x0000000B ∉ knownOpcodes := by decide

/-- UnknownSubOpsAreNops, a word for each clause. -/
theorem test_witness_unknown_sub_ops :
    ((boot 10 0x0020A463 []).About 0x0020A463 ∧ (decodeB 0x0020A463).funct3 = 0b010 ∧ opcodeOf 0x0020A463 = opBranch) ∧
    ((boot 10 0x00413183 []).About 0x00413183 ∧ (decodeI 0x00413183).funct3 = 0b011 ∧ opcodeOf 0x00413183 = opLoad) ∧
    ((boot 10 0x00317223 []).About 0x00317223 ∧ (decodeS 0x00317223).funct3 = 0b111 ∧ opcodeOf 0x00317223 = opStore) ∧
    ((boot 10 0x00004073 []).About 0x00004073 ∧ (decodeI 0x00004073).funct3 = 0b100 ∧ opcodeOf 0x00004073 = opSystem) ∧
    ((boot 10 0x00200073 []).About 0x00200073 ∧ (decodeI 0x00200073).funct3 = 0 ∧ (decodeI 0x00200073).imm = 2) := by
  decide

/-- UnknownOpPairWritesZero, at rd = x3 and rd = x0 (A30). -/
theorem test_witness_unknown_pair :
    ((boot 10 0x022081B3 []).About 0x022081B3 ∧ opcodeOf 0x022081B3 = opOp ∧
      ((decodeR 0x022081B3).funct3, (decodeR 0x022081B3).funct7) ∉ knownOpPairs) ∧
    ((boot 10 0x02208033 []).About 0x02208033 ∧ (decodeR 0x02208033).rd = 0 ∧
      ((decodeR 0x02208033).funct3, (decodeR 0x02208033).funct7) ∉ knownOpPairs) := by decide

/-- UnknownShiftWordByMode: funct3 001 and 101, in each mode. -/
theorem test_witness_unknown_shift :
    ((boot 10 0x40409193 []).About 0x40409193 ∧ opcodeOf 0x40409193 = opOpImm ∧ (decodeI 0x40409193).funct3 = 0b001 ∧
      (decodeI 0x40409193).imm.extractLsb' 5 7 = 0b0100000) ∧
    ((shifting .zero (boot 10 0x0240D193 [])).About 0x0240D193 ∧ (decodeI 0x0240D193).funct3 = 0b101 ∧
      (decodeI 0x0240D193).imm.extractLsb' 5 7 = 0b0000001) ∧
    (shifting .standard (boot 10 0x0240D193 [])).About 0x0240D193 := by decide

/-- FetchOutsideMemoryFaults: at MEM_WORDS, and at a negative index. -/
theorem test_witness_fetch_outside :
    (startAtPC 64 State.reset).run = .running ∧ ¬ (64#32).toInt < ((startAtPC 64 State.reset).cfg.memWords : Int) ∧
    ¬ 0 ≤ (0x80000000#32).toInt := by decide

/-- NoStepUnlessRunning: idle, halted, faulted. -/
theorem test_witness_not_running :
    State.reset.run = .idle ∧ State.reset.halt.run = .halted ∧
    ({ State.reset with run := .faulted (.outOfBounds 64) } : State).run = .faulted (.outOfBounds 64) := by decide

/-- RunningAlwaysSteps, IsRunningTellsRunning: two different running machines, and one that is not. -/
theorem test_witness_running :
    (boot 63 0 []).run = .running ∧ (boot 63 0 []).run = (startAtPC 64 State.reset).run ∧
    isRunning (boot 63 0 []) = true ∧ isRunning State.reset.halt = false := by decide

/-- LoadWordReads, StoreWordWrites: words 0 and 63, on canonical memory. -/
theorem test_witness_in_range :
    Memory.wf (boot 10 0 [(2, 63)]).mem ∧ ((boot 10 0 [(2, 63)]).effAddr 2 0).toInt = 63 ∧
    ((boot 10 0 [(2, 63)]).effAddr 2 0xFC1).toInt = 0 ∧ (boot 10 0 [(2, 63)]).cfg.memWords = 64 := by decide

/-- LoadStoreOutsideMemoryFault: index 64, and -1. -/
theorem test_witness_out_of_range :
    ((boot 10 0 [(2, 63)]).effAddr 2 1).toInt = 64 ∧ ((boot 10 0 []).effAddr 0 0xFFF).toInt = -1 := by decide

/-- ShiftImmediateStandard, ShiftImmediateNoopAndZero. -/
theorem test_witness_shift_modes :
    (shifting .standard State.reset).cfg.shiftMode = .standard ∧ State.reset.cfg.shiftMode = .noop ∧
    (shifting .zero State.reset).cfg.shiftMode = .zero := by decide

/-- OnlyCsrCallsController: an instruction that is no CSR instruction and answers a next state. -/
theorem test_witness_no_call :
    isCsr (.slli 3 1 4) = false ∧ after (strict (boot 10 0x00409193 [])) (fun t => !t.log.isEmpty) = true := by decide

/-- MemoryReadsLastWrite: a canonical memory that lists something; RegisterReadsLastWrite has no hypothesis. -/
theorem test_witness_memory : Memory.wf (memWriteWord [] 1 0x00100073) := by decide

/-- StoreSeenByFetch: a store in range that goes on running (M15). -/
theorem test_witness_store_fetch :
    (boot 10 0x00302523 [(3, 0x00100073)]).Inv ∧ (boot 10 0x00302523 [(3, 0x00100073)]).run = .running ∧
    (match exec (.sw 0 3 10) (boot 10 0x00302523 [(3, 0x00100073)]) with
      | .next t => decide (t.run = .running)
      | .fault _ => false
      | .refused _ => false) = true := by decide

/-- ConstructLoadsImage, ConstructTruncates: each clause. -/
theorem test_witness_construct :
    ([1, 0, 0, 0, 2, 0, 0, 0] : List Byte).length % 4 = 0 ∧ ([1, 0, 0] : List Byte).length % 4 ≠ 0 ∧
    (1 < ([1, 0, 0, 0, 2, 0, 0, 0] : List Byte).length / 4) ∧ ([1, 0, 0, 0, 2, 0, 0, 0] : List Byte).length / 4 ≤ 2 := by decide

/-- StepKeepsInvariant, OnlyStoreChangesMemory, ParametersNeverChange, LogOnlyGrows: a step from a state that meets the
invariant, to one with other memory. -/
theorem test_witness_invariant :
    (boot 10 0x00312223 [(2, 8), (3, 0x11223344)]).Inv ∧
    after (boot 10 0x00312223 [(2, 8), (3, 0x11223344)]) (fun t => decide (memReadWord t.mem 12 = 0x11223344)) = true := by
  decide

/-- DriverPortMeetsInvariant: parameters that are well-formed and a construction that succeeds, at MEM_WORDS = 1. -/
theorem test_witness_driver :
    ({ Config.default with memWords := 1 } : Config).wf = true ∧
    (match build 1 [0x73, 0, 0x10, 0] with
      | .ok s => decide s.Inv
      | .error _ => false) = true := by decide

/-- OnlyEbreakHalts: a step that halts, and one that does not. -/
theorem test_witness_halt :
    (boot 10 0x00100073 []).About 0x00100073 ∧ decode 0x00100073 = .ok (.ebreak 0 0) ∧
    after (boot 10 0x00100073 []) (fun t => decide (t.run = .halted)) = true ∧
    after (boot 10 0x00000073 []) (fun t => decide (t.run ≠ .halted)) = true := by decide

/-- FaultsArePrecise: a fetch fault, a load fault. -/
theorem test_witness_fault :
    after (startAtPC 64 State.reset) badStop = true ∧ after (boot 10 0xFFF02183 []) badStop = true := by decide

/-- StrictModeOnlyLogs: a step in STRICT_MODE whose event the quiet machine has not. -/
theorem test_witness_strict :
    after (strict (boot 10 0 [])) (fun t => decide (t.log ≠ t.quiet.log)) = true ∧
    after (strict (boot 10 0 [])).quiet (fun t => t.log.isEmpty) = true := by decide

end Sys2Proof.Machine
end

/-! Proofs about the state (spec/10_state.md): register reads after any sequence of writes, the parameters, and IsRunning(). -/

namespace Sys2Proof.Machine

/-! ## Registers (R21) -/

/-- The writes of a sequence, carried out in its order. -/
def State.writeRegs (s : State) (ws : List (RegIdx × Word)) : State := ws.foldl (fun u w => u.writeReg w.1 w.2) s

/-- The value the sequence writes to `r` last, if it writes `r` at all. -/
def lastWritten (ws : List (RegIdx × Word)) (r : RegIdx) : Option Word :=
  ((ws.filter fun w => w.1 = r).getLast?).map Prod.snd

/-- One more write at the end of the sequence is carried out last. -/
theorem writeRegs_concat (s : State) (ws : List (RegIdx × Word)) (w : RegIdx × Word) :
    s.writeRegs (ws ++ [w]) = (s.writeRegs ws).writeReg w.1 w.2 :=
  List.foldl_concat ..

/-- One more write at the end of the sequence decides its own register and no other. -/
theorem lastWritten_concat (ws : List (RegIdx × Word)) (w : RegIdx × Word) (r : RegIdx) :
    lastWritten (ws ++ [w]) r = if r = w.1 then some w.2 else lastWritten ws r := by
  by_cases h : r = w.1
  · simp [lastWritten, h]
  · simp [lastWritten, h, Ne.symm h]

/-- A register other than x0 reads the value last written, or its old one. The sequence grows at its end, where the last write
stands. -/
theorem readReg_writeRegs (s : State) (ws : List (RegIdx × Word)) {r : RegIdx} (hr : r ≠ 0#5) :
    (s.writeRegs ws).readReg r = (lastWritten ws r).getD (s.readReg r) := by
  induction ws using List.reverseRecOn with
  | nil => rfl
  | append_singleton ws w ih =>
    rw [writeRegs_concat, lastWritten_concat]
    by_cases h : r = w.1
    · subst h
      simp [readReg_writeReg_same _ _ _ hr]
    · simp [readReg_writeReg_ne _ _ h, h, ih]

/-- Settles O40: x0 reads 0 in every state, any other register by induction on the sequence. -/
theorem registerReadsLastWrite : Obligations.RegisterReadsLastWrite := by
  intro ws s r
  split
  case isTrue h => rw [h, readReg_zero]
  case isFalse h => exact readReg_writeRegs s ws h

/-! ## The parameters (R36) -/

/-- A step leaves the parameters. -/
theorem step_cfg {s t : State} (h : step s = .next t) : t.cfg = s.cfg := by
  obtain ⟨hcfg, _⟩ := step_effect h
  exact hcfg

/-- Settles O52: a step leaves the parameters, and so does StartAtPC. -/
theorem parametersNeverChange : Obligations.ParametersNeverChange :=
  ⟨fun _ _ h => step_cfg h, fun p s => startAtPC_cfg s p⟩

/-! ## The lifecycle (R32, R258) -/

/-- IsRunning() says whether the lifecycle state is Running. -/
theorem isRunning_iff (s : State) : isRunning s = true ↔ s.run = .running := decide_eq_true_iff

/-- IsRunning() reads the lifecycle state only. -/
theorem isRunning_congr {s t : State} (h : s.run = t.run) : isRunning s = isRunning t := by
  rw [Bool.eq_iff_iff, isRunning_iff, isRunning_iff, h]

/-- Settles O48, by the two facts above: when IsRunning() is true, and what it reads. -/
theorem isRunningTellsRunning : Obligations.IsRunningTellsRunning :=
  fun s _ => ⟨isRunning_iff s, isRunning_congr⟩

end Sys2Proof.Machine

/-! Proofs about the encoding (spec/30_encoding.md): the round trip of each format's fields, and the default arm of the
dispatch. -/

namespace Sys2Proof

open BitVec (extractLsb'_eq_self extractLsb'_append_eq_of_le extractLsb'_append_eq_left extractLsb'_append_eq_right
  extractLsb'_append_extractLsb'_eq_extractLsb')

/-! ## Re-encoding the decoded fields (R91)

A re-encoder places slices of the word side by side, from bit 31 down to bit 0. Two adjacent slices are one slice, so they join,
from the left, until one slice of all 32 bits is left, which is the word. In the formats S, B and J the immediate was put
together from slices, so first each of its parts is said to be the slice it came from. -/

theorem encodeR_decodeR (w : Word) : encodeR (decodeR w) = w := by
  simp only [encodeR, decodeR, opcodeOf]
  repeat rw [extractLsb'_append_extractLsb'_eq_extractLsb' (by rfl)]
  exact extractLsb'_eq_self

theorem encodeI_decodeI (w : Word) : encodeI (decodeI w) = w := by
  simp only [encodeI, decodeI, opcodeOf]
  repeat rw [extractLsb'_append_extractLsb'_eq_extractLsb' (by rfl)]
  exact extractLsb'_eq_self

theorem encodeU_decodeU (w : Word) : encodeU (decodeU w) = w := by
  simp only [encodeU, decodeU, opcodeOf]
  repeat rw [extractLsb'_append_extractLsb'_eq_extractLsb' (by rfl)]
  exact extractLsb'_eq_self

/-- Where the two parts of an S-type immediate stand in the word (R74). -/
theorem decodeS_imm_parts (w : Word) :
    (decodeS w).imm.extractLsb' 5 7 = w.extractLsb' 25 7 ∧ (decodeS w).imm.extractLsb' 0 5 = w.extractLsb' 7 5 :=
  ⟨extractLsb'_append_eq_left, extractLsb'_append_eq_right⟩

theorem encodeS_decodeS (w : Word) : encodeS (decodeS w) = w := by
  obtain ⟨hhigh, hlow⟩ := decodeS_imm_parts w
  rw [encodeS, hhigh, hlow]
  simp only [decodeS, opcodeOf]
  repeat rw [extractLsb'_append_extractLsb'_eq_extractLsb' (by rfl)]
  exact extractLsb'_eq_self

/-- Where the four parts of a B-type offset stand in the word (R75). -/
theorem decodeB_imm_parts (w : Word) :
    (decodeB w).imm.extractLsb' 12 1 = w.extractLsb' 31 1 ∧ (decodeB w).imm.extractLsb' 11 1 = w.extractLsb' 7 1 ∧
    (decodeB w).imm.extractLsb' 5 6 = w.extractLsb' 25 6 ∧ (decodeB w).imm.extractLsb' 1 4 = w.extractLsb' 8 4 := by
  simp only [decodeB]
  refine ⟨?_, ?_, ?_, ?_⟩ <;> repeat rw [extractLsb'_append_eq_of_le (by decide)]
  · exact extractLsb'_eq_self
  all_goals exact extractLsb'_append_eq_right

theorem encodeB_decodeB (w : Word) : encodeB (decodeB w) = w := by
  obtain ⟨h12, h11, h5, h1⟩ := decodeB_imm_parts w
  rw [encodeB, h12, h11, h5, h1]
  simp only [decodeB, opcodeOf]
  repeat rw [extractLsb'_append_extractLsb'_eq_extractLsb' (by rfl)]
  exact extractLsb'_eq_self

/-- Where the four parts of a J-type offset stand in the word (R77). -/
theorem decodeJ_imm_parts (w : Word) :
    (decodeJ w).imm.extractLsb' 20 1 = w.extractLsb' 31 1 ∧ (decodeJ w).imm.extractLsb' 12 8 = w.extractLsb' 12 8 ∧
    (decodeJ w).imm.extractLsb' 11 1 = w.extractLsb' 20 1 ∧ (decodeJ w).imm.extractLsb' 1 10 = w.extractLsb' 21 10 := by
  simp only [decodeJ]
  refine ⟨?_, ?_, ?_, ?_⟩ <;> repeat rw [extractLsb'_append_eq_of_le (by decide)]
  · exact extractLsb'_eq_self
  all_goals exact extractLsb'_append_eq_right

theorem encodeJ_decodeJ (w : Word) : encodeJ (decodeJ w) = w := by
  obtain ⟨h20, h12, h11, h1⟩ := decodeJ_imm_parts w
  rw [encodeJ, h20, h12, h11, h1]
  simp only [decodeJ, opcodeOf]
  repeat rw [extractLsb'_append_extractLsb'_eq_extractLsb' (by rfl)]
  exact extractLsb'_eq_self

/-- Settles O4, format by format. -/
theorem fieldDecodersRoundTrip : Obligations.FieldDecodersRoundTrip := fun w =>
  ⟨encodeR_decodeR w, encodeI_decodeI w, encodeS_decodeS w, encodeB_decodeB w, encodeU_decodeU w, encodeJ_decodeJ w⟩

end Sys2Proof

namespace Sys2Proof.Machine

/-! ## The default arm (R85) -/

/-- A word with none of the eleven opcodes passes every test of the dispatch and reaches its default arm. -/
theorem decode_of_unknown_opcode {w : Word} (h : opcodeOf w ∉ knownOpcodes) : decode w = .error .opcode := by
  unfold decode
  repeat rw [if_neg fun e => h (by rw [e]; decide)]

/-- The step on a word with an unrecognized opcode: the diagnostic event (R93), then the advance. -/
theorem step_of_unknown_opcode {s : State} {inst : Word} (ha : s.About inst) (h : opcodeOf inst ∉ knownOpcodes) :
    step s = .next (s.event (.unrecognizedInstruction s.pc inst)).advance := by
  simp only [step_of_about ha, executeWord, decode_of_unknown_opcode h, execUnrecognized, nop_eq]

/-- A diagnostic event leaves the Controller calls of the log as they were. -/
theorem event_log_calls (s : State) {e : Event} (h : e.isCall = false) :
    (s.event e).log.filter Event.isCall = s.log.filter Event.isCall := by
  rw [event_log]
  split <;> simp [h]

/-- Settles O7: the step records a diagnostic event at most, which is no Controller call, and advances. -/
theorem unknownOpcodeIsNop : Obligations.UnknownOpcodeIsNop := by
  refine ⟨by decide, fun s inst ha h => ⟨_, step_of_unknown_opcode ha h, ?_⟩⟩
  obtain ⟨hrun, _⟩ := ha
  exact ⟨fun r => by simp, by simp, fun a => by simp, by simp [hrun], by simp, event_log_calls s rfl⟩

end Sys2Proof.Machine

/-! Proofs about the upper immediates (spec/40_upper_immediate.md), and what every instruction that ends in `writeResult` does. -/

namespace Sys2Proof.Machine

/-! ## Writing one register and advancing (R21, R27) -/

/-- A register write changes the register it names, x0 excepted, and no other. -/
theorem onlyReg_writeReg (s : State) (rd : RegIdx) (v : Word) : OnlyReg s (s.writeReg rd v) rd v :=
  ⟨by rw [readReg_writeReg, if_pos rfl], fun _ hr => readReg_writeReg_ne s v hr⟩

/-- The state `writeResult` answers is the old one with one register written and the pc advanced. -/
theorem writesOnly_writeReg_advance (s : State) (rd : RegIdx) (v : Word) :
    WritesOnly s (s.writeReg rd v).advance rd v :=
  ⟨onlyReg_writeReg s rd v, by simp, fun a => by simp, by simp, by simp, by simp, by simp⟩

/-- An instruction whose meaning is `writeResult` has the whole effect of one register write. -/
theorem writeResult_writesOnly (rd : RegIdx) (v : Word) (s : State) :
    ∃ t, writeResult rd v s = .next t ∧ WritesOnly s t rd v :=
  ⟨_, writeResult_eq s rd v, writesOnly_writeReg_advance s rd v⟩

/-! ## AUIPC (R101) -/

/-- AUIPC's sum as a number: the immediate times 4096 plus the word pc, modulo 2^32. -/
theorem upperImm_add (imm : BitVec 20) (pc : Word) :
    upperImm imm + pc = BitVec.ofNat 32 (imm.toNat * 4096 + pc.toNat) :=
  BitVec.eq_of_toNat_eq (by rw [BitVec.toNat_add, upperImm_toNat, BitVec.toNat_ofNat])

/-- Settles O16: AUIPC writes the sum of its shifted immediate and the pc, which is the number R101 states. -/
theorem auipcAddsWordPc : Obligations.AuipcAddsWordPc := by
  intro rd imm s
  rw [← upperImm_add]
  exact writeResult_writesOnly rd (upperImm imm + s.pc) s

end Sys2Proof.Machine

/-! Proofs about the register-immediate ALU instructions (spec/43_alu_immediate.md): one lemma says what OP-IMM does for any
operation of two words, and each instruction adds what its operation means. -/

namespace Sys2Proof.Machine

/-! ## The common rule (R150) -/

/-- An OP-IMM instruction writes its operation's result to rd, and does nothing else but advance. -/
theorem aluImm_writesOnly (f : Word → Word → Word) (rd rs1 : RegIdx) (imm : BitVec 12) (s : State) :
    ∃ t, aluImm f rd rs1 imm s = .next t ∧ WritesOnly s t rd (f (s.readReg rs1) (sext imm)) :=
  writeResult_writesOnly rd _ s

/-! ## The sum (R151) -/

/-- Sign extension is the word of the signed reading (R10). -/
theorem sext_eq_ofInt {n : Nat} (v : BitVec n) : sext v = BitVec.ofInt 32 v.toInt := rfl

/-- Adding a sign-extended field adds its signed reading, modulo 2^32. -/
theorem add_sext {n : Nat} (a : Word) (v : BitVec n) : a + sext v = BitVec.ofInt 32 (a.toInt + v.toInt) := by
  rw [BitVec.ofInt_add, BitVec.ofInt_toInt, sext_eq_ofInt]

/-- Settles O25: ADDI writes the sum with the sign-extended immediate, which is the number R151 states. -/
theorem addiAddsImmediate : Obligations.AddiAddsImmediate := by
  intro rd rs1 imm s
  rw [← add_sext]
  exact aluImm_writesOnly (· + ·) rd rs1 imm s

/-! ## The comparisons (R152, R153) -/

/-- The word of a signed comparison is 1 or 0 by the signed readings. -/
theorem boolWord_ltSigned (a b : Word) : boolWord (ltSigned a b) = if a.toInt < b.toInt then 1 else 0 := by
  simp only [boolWord, ltSigned_eq]

/-- The word of an unsigned comparison is 1 or 0 by the unsigned readings. -/
theorem boolWord_ltUnsigned (a b : Word) : boolWord (ltUnsigned a b) = if a.toNat < b.toNat then 1 else 0 := by
  simp only [boolWord, ltUnsigned_eq]

/-- Settles O26: SLTI compares with the immediate's signed reading, which sign extension keeps; SLTIU compares with the extended
word itself, unsigned. -/
theorem setLessThanImmediate : Obligations.SetLessThanImmediate := by
  intro rd rs1 imm s
  constructor
  · rw [← sext_toInt imm (by decide), ← boolWord_ltSigned]
    exact aluImm_writesOnly (fun a b => boolWord (ltSigned a b)) rd rs1 imm s
  · rw [← sext_eq_ofInt, ← boolWord_ltUnsigned]
    exact aluImm_writesOnly (fun a b => boolWord (ltUnsigned a b)) rd rs1 imm s

/-! ## The bitwise operations (R154 to R156) -/

/-- The bits of a sign-extended 12-bit immediate: its own below bit 11, and bit 11 from there on. -/
theorem sext_getLsbD (imm : BitVec 12) {k : Nat} (hk : k < 32) : (sext imm).getLsbD k = imm.getLsbD (min k 11) := by
  rw [sext, BitVec.getLsbD_signExtend, decide_eq_true hk, Bool.true_and]
  split
  case isTrue h => rw [Nat.min_eq_left (by omega)]
  case isFalse h => rw [Nat.min_eq_right (by omega), BitVec.msb_eq_getLsbD_last]

/-- An OP-IMM instruction whose operation works bit by bit does so on the bits of rs1 and of the sign-extended immediate. -/
theorem aluImm_bitwise {f : Word → Word → Word} {g : Bool → Bool → Bool}
    (hf : ∀ a b k, (f a b).getLsbD k = g (a.getLsbD k) (b.getLsbD k)) (rd rs1 : RegIdx) (imm : BitVec 12) (s : State) :
    ∃ t v, aluImm f rd rs1 imm s = .next t ∧ WritesOnly s t rd v ∧
      ∀ k < 32, v.getLsbD k = g ((s.readReg rs1).getLsbD k) (imm.getLsbD (min k 11)) := by
  obtain ⟨t, hnext, hwrites⟩ := aluImm_writesOnly f rd rs1 imm s
  exact ⟨t, _, hnext, hwrites, fun k hk => by rw [hf, sext_getLsbD imm hk]⟩

/-- Settles O27: each of the three operations works bit by bit. -/
theorem logicalImmediate : Obligations.LogicalImmediate := fun rd rs1 imm s =>
  ⟨aluImm_bitwise (fun _ _ _ => BitVec.getLsbD_xor) rd rs1 imm s,
    aluImm_bitwise (fun _ _ _ => BitVec.getLsbD_or) rd rs1 imm s,
    aluImm_bitwise (fun _ _ _ => BitVec.getLsbD_and) rd rs1 imm s⟩

end Sys2Proof.Machine

/-! Proofs about the register-register ALU instructions (spec/44_alu_register.md): one lemma says what OP does for any operation
of two words, and each instruction adds what its operation means. -/

namespace Sys2Proof.Machine

/-! ## The common rule (R170) -/

/-- An OP instruction writes its operation's result to rd, and does nothing else but advance. -/
theorem aluReg_writesOnly (f : Word → Word → Word) (rd rs1 rs2 : RegIdx) (s : State) :
    ∃ t, aluReg f rd rs1 rs2 s = .next t ∧ WritesOnly s t rd (f (s.readReg rs1) (s.readReg rs2)) :=
  writeResult_writesOnly rd _ s

/-! ## The sum and the difference (R171, R172) -/

/-- Adding words adds their signed readings, modulo 2^32. -/
theorem add_eq_ofInt (a b : Word) : a + b = BitVec.ofInt 32 (a.toInt + b.toInt) :=
  BitVec.eq_of_toInt_eq (by rw [BitVec.toInt_add, BitVec.toInt_ofInt])

/-- Subtracting words subtracts their signed readings, modulo 2^32. -/
theorem sub_eq_ofInt (a b : Word) : a - b = BitVec.ofInt 32 (a.toInt - b.toInt) :=
  BitVec.eq_of_toInt_eq (by rw [BitVec.toInt_sub, BitVec.toInt_ofInt])

/-- Settles O30: ADD and SUB write the sum and the difference of two words, which are the numbers R171 and R172 state. -/
theorem addAndSub : Obligations.AddAndSub := by
  intro rd rs1 rs2 s
  rw [← add_eq_ofInt, ← sub_eq_ofInt]
  exact ⟨aluReg_writesOnly (· + ·) rd rs1 rs2 s, aluReg_writesOnly (· - ·) rd rs1 rs2 s⟩

/-! ## The comparisons (R174, R175) -/

/-- Settles O31: SLT writes the word of the signed comparison, SLTU that of the unsigned one. -/
theorem setLessThan : Obligations.SetLessThan := by
  intro rd rs1 rs2 s
  rw [← boolWord_ltSigned, ← boolWord_ltUnsigned]
  exact ⟨aluReg_writesOnly (fun a b => boolWord (ltSigned a b)) rd rs1 rs2 s,
    aluReg_writesOnly (fun a b => boolWord (ltUnsigned a b)) rd rs1 rs2 s⟩

/-! ## The bitwise operations (R176, R179, R180) -/

/-- An OP instruction whose operation works bit by bit does so on the bits of rs1 and rs2. -/
theorem aluReg_bitwise {f : Word → Word → Word} {g : Bool → Bool → Bool}
    (hf : ∀ a b k, (f a b).getLsbD k = g (a.getLsbD k) (b.getLsbD k)) (rd rs1 rs2 : RegIdx) (s : State) :
    ∃ t v, aluReg f rd rs1 rs2 s = .next t ∧ WritesOnly s t rd v ∧
      ∀ k < 32, v.getLsbD k = g ((s.readReg rs1).getLsbD k) ((s.readReg rs2).getLsbD k) := by
  obtain ⟨t, hnext, hwrites⟩ := aluReg_writesOnly f rd rs1 rs2 s
  exact ⟨t, _, hnext, hwrites, fun k _ => hf _ _ k⟩

/-- Settles O32: each of the three operations works bit by bit. -/
theorem registerLogic : Obligations.RegisterLogic := fun rd rs1 rs2 s =>
  ⟨aluReg_bitwise (fun _ _ _ => BitVec.getLsbD_xor) rd rs1 rs2 s,
    aluReg_bitwise (fun _ _ _ => BitVec.getLsbD_or) rd rs1 rs2 s,
    aluReg_bitwise (fun _ _ _ => BitVec.getLsbD_and) rd rs1 rs2 s⟩

end Sys2Proof.Machine

/-! Proofs about the system instructions (spec/45_system.md): what a nop leaves unchanged, and ECALL. -/

namespace Sys2Proof.Machine

/-! ## The nop (R12, R27) -/

/-- The advance moves the pc by one word and leaves everything else. -/
theorem onlyAdvances_advance (s : State) : OnlyAdvances s s.advance :=
  ⟨advance_readReg s, advance_pc s, fun _ => by rw [advance_mem],
    advance_run s, advance_log s, advance_cfg s, advance_controller s⟩

/-- An instruction whose meaning is `nop` completes and only advances. -/
theorem nop_onlyAdvances (s : State) : ∃ t, nop s = .next t ∧ OnlyAdvances s t :=
  ⟨_, nop_eq s, onlyAdvances_advance s⟩

/-! ## ECALL (R192) -/

/-- ECALL is the plain nop, whatever its register fields, and not the one that records a diagnostic event first (R192). -/
theorem exec_ecall (rd rs1 : RegIdx) (s : State) : exec (.ecall rd rs1) s = nop s := rfl

/-- Settles O35: ECALL is a nop, and a nop only advances the pc, in either value of STRICT_MODE. -/
theorem ecallDoesNothing : Obligations.EcallDoesNothing := by
  intro rd rs1 s
  rw [exec_ecall]
  exact nop_onlyAdvances s

end Sys2Proof.Machine

/-! Proofs about construction (spec/70_reset_and_hazards.md): when it fails, and what it keeps of an image that is too long. -/

namespace Sys2Proof.Machine

/-! ## The image's byte length (R251) -/

/-- The machine of an image of whole words: its first MEM_WORDS words (R253), with the warning where it holds more (R252). -/
def constructed (cfg : Config) (c : Controller) (image : List Byte) : State :=
  { State.initial cfg c with
    mem := imageCells 0 (image.take (4 * cfg.memWords))
    log := if image.length / 4 > cfg.memWords then [.imageTruncated] else [] }

variable {cfg : Config} {c : Controller} {image : List Byte}

/-- An image that does not end at a word is rejected, however many words it holds. -/
theorem construct_of_malformed (h : image.length % 4 ≠ 0) : construct cfg c image = .error .malformedImage := if_pos h

/-- An image of whole words is accepted. -/
theorem construct_of_whole_words (h : image.length % 4 = 0) : construct cfg c image = .ok (constructed cfg c image) :=
  if_neg (not_not_intro h)

/-- The byte length alone decides whether construction fails. -/
theorem construct_error_iff : construct cfg c image = .error .malformedImage ↔ image.length % 4 ≠ 0 := by
  refine ⟨fun herror hwhole => ?_, construct_of_malformed⟩
  rw [construct_of_whole_words hwhole] at herror
  cases herror

/-- Settles O44: the byte length decides, and the empty image has 0 bytes. -/
theorem constructRejectsMalformed : Obligations.ConstructRejectsMalformed := fun _ _ =>
  ⟨fun _ => construct_error_iff, _, construct_of_whole_words rfl⟩

/-! ## An image that is too long (R252) -/

/-- Construction records nothing of an image that fits. -/
theorem constructed_log_of_fits (h : image.length / 4 ≤ cfg.memWords) : (constructed cfg c image).log = [] :=
  if_neg (not_lt.mpr h)

/-- Construction records the warning of an image that is too long. -/
theorem constructed_log_of_too_long (h : cfg.memWords < image.length / 4) :
    (constructed cfg c image).log = [.imageTruncated] :=
  if_pos h

/-- An image that is too long has MEM_WORDS words left when it is cut. -/
theorem length_take_of_too_long (h : cfg.memWords < image.length / 4) :
    (image.take (4 * cfg.memWords)).length = 4 * cfg.memWords :=
  List.length_take_of_le (by omega)

/-- What construction keeps of an image is what it keeps of its first MEM_WORDS words; only the log can tell the two apart. -/
theorem constructed_eq_take (cfg : Config) (c : Controller) (image : List Byte) :
    constructed cfg c image =
      { constructed cfg c (image.take (4 * cfg.memWords)) with log := (constructed cfg c image).log } := by
  simp only [constructed, List.take_take, min_self]

/-- Settles O46: the cut image is one of exactly MEM_WORDS words, so it is accepted and fits; it leaves the same machine as the
whole image, but for the warning. -/
theorem constructTruncates : Obligations.ConstructTruncates := by
  refine fun cfg c image => ⟨construct_of_malformed, fun hwhole hlong => ?_, fun hwhole hfits =>
    ⟨_, construct_of_whole_words hwhole, constructed_log_of_fits hfits⟩⟩
  have hlength := length_take_of_too_long hlong
  have heq := constructed_eq_take cfg c image
  rw [constructed_log_of_too_long hlong] at heq
  exact ⟨_, _, construct_of_whole_words hwhole, construct_of_whole_words (by omega),
    constructed_log_of_fits (by omega), heq⟩

end Sys2Proof.Machine

/-! Proofs about the dispatch (spec/30_encoding.md R81 to R84): the arm each opcode selects, the round trip of a whole
instruction in both directions, and the words each arm leaves unrecognized. -/

namespace Sys2Proof

section
variable {w : Word}

/-! ## The arm of each opcode (R84) -/

theorem decode_of_lui (h : opcodeOf w = opLui) : decode w = .ok (.lui (decodeU w).rd (decodeU w).imm) := by
  simp [decode, h]

theorem decode_of_auipc (h : opcodeOf w = opAuipc) : decode w = .ok (.auipc (decodeU w).rd (decodeU w).imm) := by
  simp [decode, h]

theorem decode_of_jal (h : opcodeOf w = opJal) : decode w = .ok (.jal (decodeJ w).rd (decodeJ w).imm) := by
  simp [decode, h]

theorem decode_of_jalr (h : opcodeOf w = opJalr) :
    decode w = .ok (.jalr (decodeI w).rd (decodeI w).rs1 (decodeI w).funct3 (decodeI w).imm) := by
  simp [decode, h]

theorem decode_of_branch (h : opcodeOf w = opBranch) : decode w = decodeBranch (decodeB w) := by
  simp [decode, h]

theorem decode_of_load (h : opcodeOf w = opLoad) : decode w = decodeLoad (decodeI w) := by
  simp [decode, h]

theorem decode_of_store (h : opcodeOf w = opStore) : decode w = decodeStore (decodeS w) := by
  simp [decode, h]

theorem decode_of_opImm (h : opcodeOf w = opOpImm) : decode w = decodeOpImm (decodeI w) := by
  simp [decode, h]

theorem decode_of_op (h : opcodeOf w = opOp) : decode w = decodeOp (decodeR w) := by
  simp [decode, h]

theorem decode_of_miscMem (h : opcodeOf w = opMiscMem) :
    decode w = .ok (.fence (decodeI w).rd (decodeI w).rs1 (decodeI w).funct3 (decodeI w).imm) := by
  simp [decode, h]

theorem decode_of_system (h : opcodeOf w = opSystem) : decode w = decodeSystem (decodeI w) := by
  simp [decode, h]

end

/-- The opcode is none of the eleven, or one of them. -/
theorem opcode_cases (w : Word) :
    opcodeOf w ∉ Machine.knownOpcodes ∨ opcodeOf w = opLui ∨ opcodeOf w = opAuipc ∨ opcodeOf w = opJal ∨
      opcodeOf w = opJalr ∨ opcodeOf w = opBranch ∨ opcodeOf w = opLoad ∨ opcodeOf w = opStore ∨ opcodeOf w = opOpImm ∨
      opcodeOf w = opOp ∨ opcodeOf w = opMiscMem ∨ opcodeOf w = opSystem :=
  (em _).symm.imp_right fun h => by simpa [Machine.knownOpcodes] using h

/-- OP-IMM of funct3 001 is SLLI, where its funct7 says so (R157). -/
theorem decodeOpImm_left {f : IFields} (h : f.funct3 = 0b001) :
    decodeOpImm f =
      if f.imm.extractLsb' 5 7 = 0b0000000#7 then .ok (.slli f.rd f.rs1 (f.imm.extractLsb' 0 5))
      else .error (.shiftImm f.rd) := by
  simp [decodeOpImm, h]

/-- OP-IMM of funct3 101 is SRLI or SRAI, where its funct7 says so (R157). -/
theorem decodeOpImm_right {f : IFields} (h : f.funct3 = 0b101) :
    decodeOpImm f =
      if f.imm.extractLsb' 5 7 = 0b0000000#7 then .ok (.srli f.rd f.rs1 (f.imm.extractLsb' 0 5))
      else if f.imm.extractLsb' 5 7 = 0b0100000#7 then .ok (.srai f.rd f.rs1 (f.imm.extractLsb' 0 5))
      else .error (.shiftImm f.rd) := by
  simp [decodeOpImm, h]

/-! ## Decoding an encoded instruction

The opcode of a re-encoded word selects the arm, and the field decoder gives the arm the fields that were placed. -/

theorem decode_encodeB {f : BFields} (hop : f.opcode = opBranch) (himm : branchOffsetOk f.imm = true) :
    decode (encodeB f) = decodeBranch f := by
  rw [decode_of_branch (by rw [opcodeOf_encodeB, hop]), decodeB_encodeB f himm]

theorem decode_encodeI_load {f : IFields} (hop : f.opcode = opLoad) : decode (encodeI f) = decodeLoad f := by
  rw [decode_of_load (by rw [opcodeOf_encodeI, hop]), decodeI_encodeI]

theorem decode_encodeI_opImm {f : IFields} (hop : f.opcode = opOpImm) : decode (encodeI f) = decodeOpImm f := by
  rw [decode_of_opImm (by rw [opcodeOf_encodeI, hop]), decodeI_encodeI]

theorem decode_encodeI_system {f : IFields} (hop : f.opcode = opSystem) : decode (encodeI f) = decodeSystem f := by
  rw [decode_of_system (by rw [opcodeOf_encodeI, hop]), decodeI_encodeI]

theorem decode_encodeS {f : SFields} (hop : f.opcode = opStore) : decode (encodeS f) = decodeStore f := by
  rw [decode_of_store (by rw [opcodeOf_encodeS, hop]), decodeS_encodeS]

theorem decode_encodeR {f : RFields} (hop : f.opcode = opOp) : decode (encodeR f) = decodeOp f := by
  rw [decode_of_op (by rw [opcodeOf_encodeR, hop]), decodeR_encodeR]

/-- The immediate of a shift word is its funct7 over its shift amount (R82). -/
theorem shiftImm_parts (funct7 : BitVec 7) (shamt : BitVec 5) :
    (funct7 ++ shamt).extractLsb' 5 7 = funct7 ∧ (funct7 ++ shamt).extractLsb' 0 5 = shamt :=
  ⟨BitVec.extractLsb'_append_eq_left, BitVec.extractLsb'_append_eq_right⟩

/-- Settles O2: by the instruction's format, whose fields the arm of its opcode gets back; the arm's own tests then pick the
instruction. -/
theorem decodeOfEncode : Obligations.DecodeOfEncode := by
  intro i hwf
  cases i
  case lui => rw [encode, decode_of_lui (opcodeOf_encodeU _), decodeU_encodeU]
  case auipc => rw [encode, decode_of_auipc (opcodeOf_encodeU _), decodeU_encodeU]
  case jal rd imm => rw [encode, decode_of_jal (opcodeOf_encodeJ _), decodeJ_encodeJ ⟨imm, rd, opJal⟩ hwf]
  case jalr => rw [encode, decode_of_jalr (opcodeOf_encodeI _), decodeI_encodeI]
  case fence => rw [encode, decode_of_miscMem (opcodeOf_encodeI _), decodeI_encodeI]
  case beq | bne | blt | bge | bltu | bgeu => exact decode_encodeB rfl hwf
  case lb | lh | lw | lbu | lhu => exact decode_encodeI_load rfl
  case sb | sh | sw => exact decode_encodeS rfl
  case addi | slti | sltiu | xori | ori | andi => exact decode_encodeI_opImm rfl
  case slli | srli | srai =>
    rw [encode, decode_encodeI_opImm rfl]
    simp [decodeOpImm, shiftImm_parts]
  case ecall | ebreak | csrrw | csrrs | csrrc | csrrwi | csrrsi | csrrci => exact decode_encodeI_system rfl
  case add | sub | sll | slt | sltu | xor | srl | sra | or | and => exact decode_encodeR rfl

/-! ## Encoding a decoded instruction

Each arm names an instruction whose encoding places the arm's own fields again; the whole word is then its own
re-encoding (R91). -/

/-- The eight values of a funct3 field. -/
theorem funct3_values (x : BitVec 3) : x = 0 ∨ x = 1 ∨ x = 2 ∨ x = 3 ∨ x = 4 ∨ x = 5 ∨ x = 6 ∨ x = 7 := by
  decide +revert

theorem encode_of_decodeBranch {f : BFields} {i : Instr} (hop : f.opcode = opBranch) (himm : branchOffsetOk f.imm = true)
    (h : decodeBranch f = .ok i) : encode i = encodeB f ∧ i.wf = true := by
  obtain ⟨imm, rs2, rs1, funct3, opcode⟩ := f
  subst hop
  rcases funct3_values funct3 with rfl | rfl | rfl | rfl | rfl | rfl | rfl | rfl <;> cases h <;>
    exact ⟨rfl, himm⟩

theorem encode_of_decodeLoad {f : IFields} {i : Instr} (hop : f.opcode = opLoad) (h : decodeLoad f = .ok i) :
    encode i = encodeI f ∧ i.wf = true := by
  obtain ⟨imm, rs1, funct3, rd, opcode⟩ := f
  subst hop
  rcases funct3_values funct3 with rfl | rfl | rfl | rfl | rfl | rfl | rfl | rfl <;> cases h <;>
    exact ⟨rfl, rfl⟩

theorem encode_of_decodeStore {f : SFields} {i : Instr} (hop : f.opcode = opStore) (h : decodeStore f = .ok i) :
    encode i = encodeS f ∧ i.wf = true := by
  obtain ⟨imm, rs2, rs1, funct3, opcode⟩ := f
  subst hop
  rcases funct3_values funct3 with rfl | rfl | rfl | rfl | rfl | rfl | rfl | rfl <;> cases h <;>
    exact ⟨rfl, rfl⟩

/-- A shift word's immediate is the funct7 that names the shift, over the amount. -/
theorem funct7_append_shamt {imm : BitVec 12} {funct7 : BitVec 7} (h : imm.extractLsb' 5 7 = funct7) :
    funct7 ++ imm.extractLsb' 0 5 = imm := by
  rw [← h]
  exact (BitVec.extractLsb'_append_extractLsb'_eq_extractLsb' rfl).trans BitVec.extractLsb'_eq_self

theorem encode_of_decodeOpImm {f : IFields} {i : Instr} (hop : f.opcode = opOpImm) (h : decodeOpImm f = .ok i) :
    encode i = encodeI f ∧ i.wf = true := by
  obtain ⟨imm, rs1, funct3, rd, opcode⟩ := f
  subst hop
  rcases funct3_values funct3 with rfl | rfl | rfl | rfl | rfl | rfl | rfl | rfl
  case inr.inl => -- funct3 001
    rw [decodeOpImm_left rfl] at h
    split at h <;> cases h
    next hbase => exact ⟨by rw [encode, funct7_append_shamt hbase], rfl⟩
  case inr.inr.inr.inr.inr.inl => -- funct3 101
    rw [decodeOpImm_right rfl] at h
    split at h
    · next hbase => cases h; exact ⟨by rw [encode, funct7_append_shamt hbase], rfl⟩
    · split at h <;> cases h
      next harith => exact ⟨by rw [encode, funct7_append_shamt harith], rfl⟩
  all_goals cases h; exact ⟨rfl, rfl⟩

theorem encode_of_decodeOp {f : RFields} {i : Instr} (hop : f.opcode = opOp) (h : decodeOp f = .ok i) :
    encode i = encodeR f ∧ i.wf = true := by
  obtain ⟨funct7, rs2, rs1, funct3, rd, opcode⟩ := f
  subst hop
  by_cases hbase : funct7 = 0b0000000
  · subst hbase
    rcases funct3_values funct3 with rfl | rfl | rfl | rfl | rfl | rfl | rfl | rfl <;> cases h <;>
      exact ⟨rfl, rfl⟩
  by_cases harith : funct7 = 0b0100000
  · subst harith
    rcases funct3_values funct3 with rfl | rfl | rfl | rfl | rfl | rfl | rfl | rfl <;> cases h <;>
      exact ⟨rfl, rfl⟩
  · rw [decodeOp, if_neg hbase, if_neg harith] at h
    cases h

theorem encode_of_decodeSystem {f : IFields} {i : Instr} (hop : f.opcode = opSystem) (h : decodeSystem f = .ok i) :
    encode i = encodeI f ∧ i.wf = true := by
  obtain ⟨imm, rs1, funct3, rd, opcode⟩ := f
  subst hop
  rcases funct3_values funct3 with rfl | rfl | rfl | rfl | rfl | rfl | rfl | rfl
  case inl => -- funct3 000
    by_cases hecall : imm = 0x000
    · subst hecall; cases h; exact ⟨rfl, rfl⟩
    by_cases hebreak : imm = 0x001
    · subst hebreak; cases h; exact ⟨rfl, rfl⟩
    · rw [decodeSystem, if_pos rfl, if_neg hecall, if_neg hebreak] at h
      cases h
  all_goals cases h <;> exact ⟨rfl, rfl⟩

/-- A decoded B-type offset is even: its bit 0 is the format's implicit one (R75). -/
theorem decodeB_imm_ok (w : Word) : branchOffsetOk (decodeB w).imm = true := by
  rw [branchOffsetOk, decodeB, BitVec.getLsbD_append]
  rfl

/-- A decoded J-type offset is even (R77). -/
theorem decodeJ_imm_ok (w : Word) : jumpOffsetOk (decodeJ w).imm = true := by
  rw [jumpOffsetOk, decodeJ, BitVec.getLsbD_append]
  rfl

/-- Settles O3: by the arm the word's opcode selects. An arm's instruction places the arm's fields again, and a format's
re-encoded fields are the word (R91). -/
theorem encodeOfDecode : Obligations.EncodeOfDecode := by
  intro w i h
  rcases opcode_cases w with hop | hop | hop | hop | hop | hop | hop | hop | hop | hop | hop | hop
  · rw [Machine.decode_of_unknown_opcode hop] at h
    cases h
  · rw [decode_of_lui hop] at h
    cases h
    exact ⟨by rw [encode, ← hop]; exact encodeU_decodeU w, rfl⟩
  · rw [decode_of_auipc hop] at h
    cases h
    exact ⟨by rw [encode, ← hop]; exact encodeU_decodeU w, rfl⟩
  · rw [decode_of_jal hop] at h
    cases h
    exact ⟨by rw [encode, ← hop]; exact encodeJ_decodeJ w, decodeJ_imm_ok w⟩
  · rw [decode_of_jalr hop] at h
    cases h
    exact ⟨by rw [encode, ← hop]; exact encodeI_decodeI w, rfl⟩
  · rw [decode_of_branch hop] at h
    rw [← encodeB_decodeB w]
    exact encode_of_decodeBranch hop (decodeB_imm_ok w) h
  · rw [decode_of_load hop] at h
    rw [← encodeI_decodeI w]
    exact encode_of_decodeLoad hop h
  · rw [decode_of_store hop] at h
    rw [← encodeS_decodeS w]
    exact encode_of_decodeStore hop h
  · rw [decode_of_opImm hop] at h
    rw [← encodeI_decodeI w]
    exact encode_of_decodeOpImm hop h
  · rw [decode_of_op hop] at h
    rw [← encodeR_decodeR w]
    exact encode_of_decodeOp hop h
  · rw [decode_of_miscMem hop] at h
    cases h
    exact ⟨by rw [encode, ← hop]; exact encodeI_decodeI w, rfl⟩
  · rw [decode_of_system hop] at h
    rw [← encodeI_decodeI w]
    exact encode_of_decodeSystem hop h

/-! ## The words each arm leaves unrecognized (R84) -/

theorem decodeBranch_error_iff (f : BFields) (u : Unrecognized) :
    decodeBranch f = .error u ↔ u = .branchSubOp ∧ f.funct3 ∈ [0b010, 0b011] := by
  rcases funct3_values f.funct3 with h | h | h | h | h | h | h | h <;> simp [decodeBranch, h, eq_comm (a := u)]

theorem decodeLoad_error_iff (f : IFields) (u : Unrecognized) :
    decodeLoad f = .error u ↔ u = .loadSubOp ∧ f.funct3 ∈ [0b011, 0b110, 0b111] := by
  rcases funct3_values f.funct3 with h | h | h | h | h | h | h | h <;> simp [decodeLoad, h, eq_comm (a := u)]

theorem decodeStore_error_iff (f : SFields) (u : Unrecognized) :
    decodeStore f = .error u ↔ u = .storeSubOp ∧ f.funct3 ∈ [0b011, 0b100, 0b101, 0b110, 0b111] := by
  rcases funct3_values f.funct3 with h | h | h | h | h | h | h | h <;> simp [decodeStore, h, eq_comm (a := u)]

theorem decodeSystem_error_iff (f : IFields) (u : Unrecognized) :
    decodeSystem f = .error u ↔
      u = .systemSubOp ∧ (f.funct3 = 0b100 ∨ f.funct3 = 0b000 ∧ f.imm ≠ 0x000 ∧ f.imm ≠ 0x001) := by
  rcases funct3_values f.funct3 with h | h | h | h | h | h | h | h
  · by_cases h0 : f.imm = 0#12 <;> by_cases h1 : f.imm = 1#12 <;> simp [decodeSystem, h, h0, h1, eq_comm (a := u)]
  all_goals simp [decodeSystem, h, eq_comm (a := u)]

theorem decodeOp_error_iff (f : RFields) (u : Unrecognized) :
    decodeOp f = .error u ↔ u = .opPair f.rd ∧ (f.funct3, f.funct7) ∉ Machine.knownOpPairs := by
  by_cases hbase : f.funct7 = 0#7 <;> by_cases harith : f.funct7 = 32#7 <;>
    rcases funct3_values f.funct3 with h | h | h | h | h | h | h | h <;>
    simp [decodeOp, Machine.knownOpPairs, h, hbase, harith, eq_comm (a := u)]

theorem decodeOpImm_error_iff (f : IFields) (u : Unrecognized) :
    decodeOpImm f = .error u ↔ u = .shiftImm f.rd ∧
      (f.funct3 = 0b001 ∧ f.imm.extractLsb' 5 7 ≠ 0b0000000 ∨
        f.funct3 = 0b101 ∧ f.imm.extractLsb' 5 7 ≠ 0b0000000 ∧ f.imm.extractLsb' 5 7 ≠ 0b0100000) := by
  rcases funct3_values f.funct3 with h | h | h | h | h | h | h | h
  case inr.inl => rw [decodeOpImm_left h]; split_ifs <;> simp_all [eq_comm (a := u)]
  case inr.inr.inr.inr.inr.inl => rw [decodeOpImm_right h]; split_ifs <;> simp_all [eq_comm (a := u)]
  all_goals simp [decodeOpImm, h]

/-- The arms that can leave a word unrecognized: the default one, and six of the opcodes'. -/
theorem decode_error_iff (w : Word) (u : Unrecognized) :
    decode w = .error u ↔
      u = .opcode ∧ opcodeOf w ∉ Machine.knownOpcodes ∨
      opcodeOf w = opBranch ∧ decodeBranch (decodeB w) = .error u ∨
      opcodeOf w = opLoad ∧ decodeLoad (decodeI w) = .error u ∨
      opcodeOf w = opStore ∧ decodeStore (decodeS w) = .error u ∨
      opcodeOf w = opOpImm ∧ decodeOpImm (decodeI w) = .error u ∨
      opcodeOf w = opOp ∧ decodeOp (decodeR w) = .error u ∨
      opcodeOf w = opSystem ∧ decodeSystem (decodeI w) = .error u := by
  rcases opcode_cases w with h | h | h | h | h | h | h | h | h | h | h | h
  · have hne {op : BitVec 7} (hop : op ∈ Machine.knownOpcodes) : opcodeOf w ≠ op := fun e => h (e ▸ hop)
    simp only [Machine.decode_of_unknown_opcode h, h, hne (op := opBranch) (by decide), hne (op := opLoad) (by decide),
      hne (op := opStore) (by decide), hne (op := opOpImm) (by decide), hne (op := opOp) (by decide),
      hne (op := opSystem) (by decide)]
    simp [eq_comm (a := u)]
  all_goals simp [decode, Machine.knownOpcodes, h]

/-- Settles O5: the names of the arms differ, so a name says which arm answered it, and each arm's own lemma says when. -/
theorem unrecognizedWordsExactly : Obligations.UnrecognizedWordsExactly := by
  intro w
  simp only [decode_error_iff, decodeBranch_error_iff, decodeLoad_error_iff, decodeStore_error_iff, decodeSystem_error_iff,
    decodeOp_error_iff, decodeOpImm_error_iff]
  refine ⟨by simp, by simp, by simp, by simp, by simp, fun rd => ?_, fun rd => ?_⟩ <;> simp [eq_comm (a := rd)]

end Sys2Proof

/-! Proofs about the unrecognized words (spec/30_encoding.md R84 to R87, R93): what their step does, word by word of the dispatch
table's gaps. -/

namespace Sys2Proof.Machine

variable {s t : State} {inst : Word}

/-! ## A step and its word -/

/-- R83: the step of a word that decodes to an instruction is that instruction's meaning. -/
theorem step_of_decode_ok {i : Instr} (ha : s.About inst) (hd : decode inst = .ok i) : step s = exec i s := by
  rw [step_of_about ha, executeWord, hd]

/-- The step of an unrecognized word is the meaning of its arm (R84). -/
theorem step_of_decode_error {u : Unrecognized} (ha : s.About inst) (hd : decode inst = .error u) :
    step s = execUnrecognized u inst s := by
  rw [step_of_about ha, executeWord, hd]

/-- Settles O6: the word at the pc is fetched, and its decoding selects `exec`. -/
theorem stepRunsDecodedInstruction : Obligations.StepRunsDecodedInstruction := fun _ _ _ ha hd => step_of_decode_ok ha hd

/-! ## Reporting a diagnostic event (R93) -/

/-- A nop that reports: the event in STRICT_MODE, and the advance. -/
theorem nop_event_reports (s : State) (e : Event) :
    SameRegs s (s.event e).advance ∧ (s.event e).advance.pc = s.pc + 1 ∧ SameMem s (s.event e).advance ∧
      Reports s (s.event e).advance e :=
  ⟨fun r => by simp, by simp, fun a => by simp, by simp, by simp, by simp, by simp⟩

/-- A write of 0 that reports: the register, the event in STRICT_MODE, and the advance. -/
theorem writesZero_event_reports (s : State) (e : Event) (rd : RegIdx) :
    OnlyReg s ((s.event e).writeReg rd 0).advance rd 0 ∧ ((s.event e).writeReg rd 0).advance.pc = s.pc + 1 ∧
      SameMem s ((s.event e).writeReg rd 0).advance ∧ Reports s ((s.event e).writeReg rd 0).advance e := by
  obtain ⟨hrd, hother⟩ := onlyReg_writeReg (s.event e) rd 0
  refine ⟨⟨hrd, fun r hr => ?_⟩, by simp, fun a => by simp, by simp, by simp, by simp, by simp⟩
  rw [advance_readReg, hother r hr, event_readReg]

/-- Settles O8: the default arm reports the word and advances. -/
theorem unknownOpcodeRecorded : Obligations.UnknownOpcodeRecorded := by
  intro s inst ha hop
  obtain ⟨_, _, _, hreports⟩ := nop_event_reports s (.unrecognizedInstruction s.pc inst)
  exact ⟨_, step_of_unknown_opcode ha hop, hreports⟩

/-! ## The unrecognized sub-operations (R120, R139, R140, R194) -/

/-- The four arms that are a nop with the event, whatever the parameters. -/
def isSubOp (u : Unrecognized) : Prop :=
  u = .branchSubOp ∨ u = .loadSubOp ∨ u = .storeSubOp ∨ u = .systemSubOp

/-- The four arms have one meaning. -/
theorem execUnrecognized_of_isSubOp {u : Unrecognized} (hu : isSubOp u) (inst : Word) (s : State) :
    execUnrecognized u inst s = unknownSubOp inst s := by
  rcases hu with rfl | rfl | rfl | rfl <;> rfl

/-- Settles O9: the decoder names one of the four arms for exactly these words. -/
theorem unknownSubOpsAreNops : Obligations.UnknownSubOpsAreNops := by
  intro s inst ha hword
  obtain ⟨_, hbranch, hload, hstore, hsystem, _⟩ := unrecognizedWordsExactly inst
  have harm : ∃ u, decode inst = .error u ∧ isSubOp u := by
    rcases hword with h | h | h | h
    · exact ⟨_, hbranch.mpr h, .inl rfl⟩
    · exact ⟨_, hload.mpr h, .inr (.inl rfl)⟩
    · exact ⟨_, hstore.mpr h, .inr (.inr (.inl rfl))⟩
    · exact ⟨_, hsystem.mpr h, .inr (.inr (.inr rfl))⟩
  obtain ⟨u, hd, hu⟩ := harm
  rw [step_of_decode_error ha hd, execUnrecognized_of_isSubOp hu]
  exact ⟨_, rfl, nop_event_reports s _⟩

/-! ## OP pairs and shift words (R181, R157) -/

/-- Settles O10: the decoder names the pair's arm, which writes 0 to rd and reports. -/
theorem unknownOpPairWritesZero : Obligations.UnknownOpPairWritesZero := by
  intro s inst ha hop hpair
  obtain ⟨_, _, _, _, _, hopPair, _⟩ := unrecognizedWordsExactly inst
  rw [step_of_decode_error ha ((hopPair _).mpr ⟨hop, rfl, hpair⟩)]
  exact ⟨_, rfl, writesZero_event_reports s _ _⟩

/-- The shift word's arm follows OPIMM_SHIFT_MODE: in mode zero a write of 0 that reports, in the two others a nop that
reports. -/
theorem execUnrecognized_shiftImm (rd : RegIdx) (inst : Word) (s : State) :
    execUnrecognized (.shiftImm rd) inst s =
      if s.cfg.shiftMode = .zero then unknownWritesZero inst rd s else unknownSubOp inst s := by
  unfold execUnrecognized
  cases h : s.cfg.shiftMode <;> simp

/-- Settles O11: the decoder names the shift word's arm, in whose mode zero only 0 is written to rd. -/
theorem unknownShiftWordByMode : Obligations.UnknownShiftWordByMode := by
  intro s inst ha hop hshift
  obtain ⟨_, _, _, _, _, _, hshiftImm⟩ := unrecognizedWordsExactly inst
  rw [step_of_decode_error ha ((hshiftImm _).mpr ⟨hop, rfl, hshift⟩), execUnrecognized_shiftImm]
  split
  · exact ⟨_, rfl, writesZero_event_reports s _ _⟩
  · exact ⟨_, rfl, nop_event_reports s _⟩

end Sys2Proof.Machine

/-! Proofs about the instructions that write no register or one (spec/40_upper_immediate.md to spec/45_system.md): LUI, the
jumps and branches, the loads and stores, the shifts, FENCE and EBREAK. -/

namespace Sys2Proof.Machine

/-! ## LUI (R100) -/

/-- The immediate in bits 31:12 and a word's own bits 11:0 are the two side by side. -/
theorem upperImm_or_low (imm : BitVec 20) (v : Word) :
    upperImm imm ||| (v &&& 0x00000FFF) = imm ++ v.extractLsb' 0 12 := by
  apply BitVec.eq_of_getLsbD_eq
  intro i hi
  simp only [upperImm, zext, BitVec.getLsbD_or, BitVec.getLsbD_and, BitVec.getLsbD_append, BitVec.getLsbD_shiftLeft,
    BitVec.getLsbD_setWidth, BitVec.getLsbD_extractLsb']
  interval_cases i <;> simp

/-- Settles O15: LUI is a register write of the two parts side by side. -/
theorem luiKeepsLowBits : Obligations.LuiKeepsLowBits := by
  intro rd imm s
  rw [← upperImm_or_low]
  exact writeResult_writesOnly rd _ s

/-! ## Jumps and branches (R110 to R119) -/

/-- Writing one register and assigning the pc changes nothing else. -/
theorem onlyReg_writeReg_setPc (s : State) (rd : RegIdx) (v p : Word) :
    OnlyReg s ((s.writeReg rd v).setPc p) rd v ∧ SameMem s ((s.writeReg rd v).setPc p) ∧
      SameRest s ((s.writeReg rd v).setPc p) :=
  ⟨onlyReg_writeReg s rd v, fun a => by simp, by simp, by simp, by simp, by simp⟩

/-- Settles O17: the offset in words is the byte offset divided by 4 toward zero (R11). -/
theorem jalLinksAndJumps : Obligations.JalLinksAndJumps := by
  intro rd imm s
  obtain ⟨hreg, hmem, hrest⟩ := onlyReg_writeReg_setPc s rd (s.pc + 4) (s.pc + wordOffset imm)
  exact ⟨_, execJal_eq s rd imm, hreg, by rw [setPc_pc, wordOffset_eq imm (by decide)], hmem, hrest⟩

/-- A source register read in the order of LINK_BEFORE_READ is the operand R112 and R195 name. -/
theorem writeAndRead_fst_eq_operandAfterLink (s : State) (rd rs1 : RegIdx) (v : Word) :
    (s.writeAndRead rd v (fun u => u.readReg rs1)).1 = s.operandAfterLink rd rs1 v :=
  writeAndRead_fst_reg s rs1 rd v

/-- Clearing bit 0 halves and doubles (R112). -/
theorem clearBit0_eq_ofNat (v : Word) : v &&& (0xFFFFFFFE : Word) = BitVec.ofNat 32 (2 * (v.toNat / 2)) := by
  have hshift : v &&& (0xFFFFFFFE : Word) = (v >>> 1) <<< 1 := by
    apply BitVec.eq_of_getLsbD_eq
    intro i hi
    simp only [BitVec.getLsbD_and, BitVec.getLsbD_shiftLeft, BitVec.getLsbD_ushiftRight]
    interval_cases i <;> simp
  rw [hshift]
  apply BitVec.eq_of_toNat_eq
  simp only [BitVec.toNat_shiftLeft, BitVec.toNat_ushiftRight, BitVec.toNat_ofNat, Nat.shiftLeft_eq, Nat.shiftRight_eq_div_pow]
  omega

/-- Settles O18: the target is the sum with bit 0 cleared, and the advance adds 1 (R110). -/
theorem jalrLinksAndJumps : Obligations.JalrLinksAndJumps := by
  intro rd rs1 funct3 imm s
  have heq := execJalr_eq s rd rs1 funct3 imm
  rw [writeAndRead_fst_eq_operandAfterLink] at heq
  obtain ⟨hreg, hmem, hrest⟩ := onlyReg_writeReg_setPc s rd (s.pc + 4)
    (((s.operandAfterLink rd rs1 (s.pc + 4) + s.pc) &&& 0xFFFFFFFE) + 1)
  refine ⟨_, heq, hreg, ?_, hmem, hrest⟩
  rw [setPc_pc, clearBit0_eq_ofNat, BitVec.ofNat_add]
  rfl

/-- A branch only goes to the target of R113, which its comparison decides. -/
theorem branch_onlyGoesTo {taken : Bool} {p : Prop} [Decidable p] (htaken : taken = true ↔ p) (imm : BitVec 13) (s : State) :
    ∃ t, branch taken imm s = .next t ∧
      OnlyGoesTo s t (if p then s.pc + BitVec.ofInt 32 (imm.toInt.tdiv 4) else s.pc + 1) := by
  refine ⟨_, branch_eq s taken imm, fun r => by simp, ?_, fun a => by simp, by simp, by simp, by simp, by simp⟩
  rw [setPc_pc, wordOffset_eq imm (by decide)]
  simp only [htaken]

/-- Settles O19: each branch is the common rule with its own comparison; the negated ones turn the comparison or the targets. -/
theorem branchesCompareAndJump : Obligations.BranchesCompareAndJump := by
  intro rs1 rs2 imm s
  refine ⟨branch_onlyGoesTo decide_eq_true_iff imm s, ?_, branch_onlyGoesTo (ltSigned_eq _ _) imm s,
    branch_onlyGoesTo (by simp [ltSigned]) imm s, branch_onlyGoesTo (ltUnsigned_eq _ _) imm s,
    branch_onlyGoesTo (by simp [ltUnsigned]) imm s⟩
  rw [← ite_not]
  exact branch_onlyGoesTo decide_eq_true_iff imm s

/-! ## Loads and stores (R130 to R138) -/

/-- Settles O20: the offset is sign-extended and added. -/
theorem effectiveAddressIsBasePlusOffset : Obligations.EffectiveAddressIsBasePlusOffset := fun s rs1 imm =>
  add_sext (s.readReg rs1) imm

/-- Settles O21: a load in range is a register write of the memory word. -/
theorem loadWordReads : Obligations.LoadWordReads := by
  intro rd rs1 imm s hlow hhigh
  have hin := (inRange_iff s (s.effAddr rs1 imm)).mpr ⟨hlow, hhigh⟩
  have hexec := execLw_eq s rd rs1 imm
  rw [if_pos hin] at hexec
  exact ⟨_, hexec, writesOnly_writeReg_advance s rd _⟩

/-- Settles O22: a store in range replaces its word, which no byte outside it can see. -/
theorem storeWordWrites : Obligations.StoreWordWrites := by
  intro rs1 rs2 imm s hwf hlow hhigh
  have hin := (inRange_iff s (s.effAddr rs1 imm)).mpr ⟨hlow, hhigh⟩
  have hexec := execSw_eq s rs1 rs2 imm
  rw [if_pos hin] at hexec
  refine ⟨_, hexec, fun r => by simp, rfl, ⟨rfl, rfl, rfl, rfl⟩, ?_, fun b hb => ?_⟩
  · rw [advance_mem, memReadWord_memWriteWord hwf, if_pos rfl]
  · rw [advance_mem, memReadByte_memWriteWord_outside hwf _ hb]

/-- Settles O23: outside memory neither reads nor writes. -/
theorem loadStoreOutsideMemoryFault : Obligations.LoadStoreOutsideMemoryFault := by
  intro r rs1 imm s hout
  have hnot := mt (inRange_iff s (s.effAddr rs1 imm)).mp hout
  rw [exec, exec, execLw_eq, execSw_eq, if_neg hnot, if_neg hnot]
  exact ⟨rfl, rfl⟩

/-- Settles O24: all six are nops. -/
theorem widthVariantsDoNothing : Obligations.WidthVariantsDoNothing := fun _ _ _ s =>
  have h := nop_onlyAdvances s
  ⟨h, h, h, h, h, h⟩

/-! ## Shifts (R157 to R160, R173, R177, R178) -/

/-- A left shift multiplies by a power of 2, modulo 2^32. -/
theorem shiftLeft_eq_ofNat (v : Word) (n : Nat) : v <<< n = BitVec.ofNat 32 (v.toNat * 2 ^ n) := by
  apply BitVec.eq_of_toNat_eq
  rw [BitVec.toNat_shiftLeft, BitVec.toNat_ofNat, Nat.shiftLeft_eq]

/-- A logical right shift is the unsigned quotient by a power of 2. -/
theorem ushiftRight_eq_ofNat (v : Word) (n : Nat) : v >>> n = BitVec.ofNat 32 (v.toNat / 2 ^ n) := by
  rw [← Nat.shiftRight_eq_div_pow, ← BitVec.toNat_ushiftRight, BitVec.ofNat_toNat, BitVec.setWidth_eq]

/-- An arithmetic right shift is the signed quotient by a power of 2, rounded down. -/
theorem sshiftRight_eq_ofInt (v : Word) (n : Nat) : v.sshiftRight n = BitVec.ofInt 32 (v.toInt / 2 ^ n) := by
  rw [← BitVec.ofInt_toInt (x := v.sshiftRight n), BitVec.toInt_sshiftRight, Int.shiftRight_eq_div_pow]
  norm_cast

/-- In the mode standard a shift-immediate is a register write of its result. -/
theorem shiftByMode_standard {s : State} (h : s.cfg.shiftMode = .standard) (inst : Word) (rd : RegIdx) (v : Word) :
    ∃ t, shiftByMode inst rd v s = .next t ∧ WritesOnly s t rd v := by
  rw [shiftByMode_eq, h]
  exact ⟨_, rfl, writesOnly_writeReg_advance s rd v⟩

/-- In the mode noop it only reports. -/
theorem shiftByMode_noop {s : State} (h : s.cfg.shiftMode = .noop) (inst : Word) (rd : RegIdx) (v : Word) :
    ∃ t, shiftByMode inst rd v s = .next t ∧ SameRegs s t ∧ t.pc = s.pc + 1 ∧ SameMem s t ∧
      Reports s t (.unrecognizedSubOp s.pc inst) := by
  rw [shiftByMode_eq, h]
  exact ⟨_, rfl, nop_event_reports s _⟩

/-- In the mode zero it writes 0 and reports. -/
theorem shiftByMode_zero {s : State} (h : s.cfg.shiftMode = .zero) (inst : Word) (rd : RegIdx) (v : Word) :
    ∃ t, shiftByMode inst rd v s = .next t ∧ OnlyReg s t rd 0 ∧ t.pc = s.pc + 1 ∧ SameMem s t ∧
      Reports s t (.unrecognizedSubOp s.pc inst) := by
  rw [shiftByMode_eq, h]
  exact ⟨_, rfl, writesZero_event_reports s _ rd⟩

/-- Settles O28: each shift's result is the number R158 to R160 state. -/
theorem shiftImmediateStandard : Obligations.ShiftImmediateStandard := by
  intro rd rs1 shamt s hmode
  rw [← shiftLeft_eq_ofNat, ← ushiftRight_eq_ofNat, ← sshiftRight_eq_ofInt]
  exact ⟨shiftByMode_standard hmode _ rd _, shiftByMode_standard hmode _ rd _, shiftByMode_standard hmode _ rd _⟩

/-- The three shift-immediates follow OPIMM_SHIFT_MODE with their own encoding as the word (log 8). -/
theorem exec_shiftImm {rd rs1 : RegIdx} {shamt : BitVec 5} {i : Instr}
    (hi : i = .slli rd rs1 shamt ∨ i = .srli rd rs1 shamt ∨ i = .srai rd rs1 shamt) (s : State) :
    ∃ v, exec i s = shiftByMode (encode i) rd v s := by
  rcases hi with rfl | rfl | rfl <;> exact ⟨_, rfl⟩

/-- Settles O29: by the mode, for the three alike. -/
theorem shiftImmediateNoopAndZero : Obligations.ShiftImmediateNoopAndZero := by
  intro rd rs1 shamt s i hi
  obtain ⟨v, hexec⟩ := exec_shiftImm hi s
  rw [hexec]
  exact ⟨fun h => shiftByMode_noop h _ rd v, fun h => shiftByMode_zero h _ rd v⟩

/-- Settles O33: the amount is x[rs2] modulo 32 (R170), the results are the numbers R173, R177 and R178 state. -/
theorem registerShifts : Obligations.RegisterShifts := by
  intro rd rs1 rs2 s n
  rw [← shiftLeft_eq_ofNat, ← ushiftRight_eq_ofNat, ← sshiftRight_eq_ofInt, show n = _ from (shiftAmount_eq _).symm]
  exact ⟨aluReg_writesOnly (fun a b => a <<< shiftAmount b) rd rs1 rs2 s,
    aluReg_writesOnly (fun a b => a >>> shiftAmount b) rd rs1 rs2 s,
    aluReg_writesOnly (fun a b => a.sshiftRight (shiftAmount b)) rd rs1 rs2 s⟩

/-! ## FENCE, EBREAK (R190, R193) -/

/-- Settles O34: FENCE is a nop. -/
theorem fenceDoesNothing : Obligations.FenceDoesNothing := fun _ _ _ _ s => nop_onlyAdvances s

/-- Settles O36: EBREAK halts and completes. -/
theorem ebreakHalts : Obligations.EbreakHalts := fun _ _ s =>
  ⟨_, complete_eq s.halt, rfl, rfl, fun _ => rfl, rfl, fun _ => rfl, rfl, rfl, rfl⟩

/-! ## The CSR instructions (R195 to R202) -/

/-- Zero extension is the word of the unsigned reading (R10). -/
theorem zext_eq_ofNat {n : Nat} (v : BitVec n) : zext v = BitVec.ofNat 32 v.toNat := (BitVec.ofNat_toNat 32 v).symm

/-- The Controller address is the field's number (D13). -/
theorem csrAddr_eq_ofNat (csr : BitVec 12) : csrAddr csr = BitVec.ofNat 32 csr.toNat := zext_eq_ofNat csr

/-- The common CSR rule: the two calls, the register and the advance, the source being whatever the order of LINK_BEFORE_READ
gives. -/
theorem csrOp_effect (f : Word → Word → Word) (source : State → Word) (rd : RegIdx) (csr : BitVec 12) (s : State) :
    ∃ t, csrOp f source rd csr s = .next t ∧
      CsrEffect s t rd (csrAddr csr) (s.csrAnswer (csrAddr csr)) (f (s.csrAnswer (csrAddr csr))
        ((s.csrRead (csrAddr csr)).writeAndRead rd (s.csrAnswer (csrAddr csr)) source).1) :=
  ⟨_, csrOp_eq s rd f source csr, onlyReg_writeReg (s.csrRead _) rd _, by simp, fun a => by simp, by simp, by simp, by simp,
    by simp⟩

/-- With a register as the source, it is the operand R195 names. -/
theorem csrOp_register (f : Word → Word → Word) (rd rs1 : RegIdx) (csr : BitVec 12) (s : State) :
    let a : Word := BitVec.ofNat 32 csr.toNat
    let old := s.csrAnswer a
    ∃ t, csrOp f (fun u => u.readReg rs1) rd csr s = .next t ∧
      CsrEffect s t rd a old (f old (s.operandAfterLink rd rs1 old)) := by
  have h := csrOp_effect f (fun u => u.readReg rs1) rd csr s
  rw [writeAndRead_fst_eq_operandAfterLink, csrAddr_eq_ofNat] at h
  exact h

/-- With a literal as the source, it is the literal's number. -/
theorem csrOp_literal (f : Word → Word → Word) (rd : RegIdx) (uimm : BitVec 5) (csr : BitVec 12) (s : State) :
    let a : Word := BitVec.ofNat 32 csr.toNat
    let old := s.csrAnswer a
    ∃ t, csrOp f (fun _ => zext uimm) rd csr s = .next t ∧
      CsrEffect s t rd a old (f old (BitVec.ofNat 32 uimm.toNat)) := by
  have h := csrOp_effect f (fun _ => zext uimm) rd csr s
  rw [writeAndRead_fst_const, csrAddr_eq_ofNat] at h
  rw [← zext_eq_ofNat uimm]
  exact h

/-- Settles O37: the common rule with each of the three functions. -/
theorem csrRegisterForms : Obligations.CsrRegisterForms := fun rd rs1 csr s =>
  ⟨csrOp_register csrOverwrite rd rs1 csr s, csrOp_register csrSetBits rd rs1 csr s,
    csrOp_register csrClearBits rd rs1 csr s⟩

/-- Settles O38: the same with the literal source. -/
theorem csrImmediateForms : Obligations.CsrImmediateForms := fun rd uimm csr s =>
  ⟨csrOp_literal csrOverwrite rd uimm csr s, csrOp_literal csrSetBits rd uimm csr s,
    csrOp_literal csrClearBits rd uimm csr s⟩

end Sys2Proof.Machine

/-! Proofs about every instruction (spec/10_state.md): the few shapes an instruction's meaning has, and from them the registers,
the log and the Controller calls. -/

namespace Sys2Proof.Machine

/-! ## The shapes of an instruction's meaning

A classification that says of each instruction which shared operation it is, in every state, with the values it writes as
functions of the state that read neither the log nor STRICT_MODE. -/

/-- The value is the same in the machine with STRICT_MODE off and no diagnostic events. -/
def Unlogged {α : Type} (f : State → α) : Prop := ∀ s, f s.quiet = f s

/-- The shared operation an instruction is. -/
inductive Shape (i : Instr) : Prop
  | nops (h : ∀ s, exec i s = nop s)
  | halts (h : ∀ s, exec i s = complete s.halt)
  | writes (rd : RegIdx) (v : State → Word) (hdest : destOf i = some rd) (h : ∀ s, exec i s = writeResult rd (v s) s)
      (hv : Unlogged v)
  | shifts (inst : Word) (rd : RegIdx) (v : State → Word) (hdest : destOf i = some rd)
      (h : ∀ s, exec i s = shiftByMode inst rd (v s) s) (hv : Unlogged v)
  | jumps (rd : RegIdx) (v p : State → Word) (hdest : destOf i = some rd)
      (h : ∀ s, exec i s = .next ((s.writeReg rd (v s)).setPc (p s))) (hv : Unlogged v) (hp : Unlogged p)
  | branches (taken : State → Bool) (imm : BitVec 13) (h : ∀ s, exec i s = branch (taken s) imm s)
      (htaken : Unlogged taken)
  | loads (rd rs1 : RegIdx) (imm : BitVec 12) (h : i = .lw rd rs1 imm)
  | stores (rs1 rs2 : RegIdx) (imm : BitVec 12) (h : i = .sw rs1 rs2 imm)
  | calls (rd : RegIdx) (a : Word) (new : State → Word → Word) (hcsr : isCsr i = true) (hdest : destOf i = some rd)
      (h : ∀ s, exec i s =
        .next (((s.csrRead a).writeReg rd (s.csrAnswer a)).csrWrite a (new s (s.csrAnswer a))).advance)
      (hnew : Unlogged new)

/-- A CSR instruction with a register source calls the Controller. -/
theorem shape_csr_register {i : Instr} (f : Word → Word → Word) (rd rs1 : RegIdx) (csr : BitVec 12) (hcsr : isCsr i = true)
    (hdest : destOf i = some rd) (h : ∀ s, exec i s = csrOp f (fun u => u.readReg rs1) rd csr s) : Shape i := by
  refine .calls rd (csrAddr csr) (fun s v => f v (s.operandAfterLink rd rs1 v)) hcsr hdest (fun s => ?_) fun _ => rfl
  rw [h, csrOp_eq, writeAndRead_fst_eq_operandAfterLink]
  rfl

/-- A CSR instruction with a literal source calls the Controller. -/
theorem shape_csr_literal {i : Instr} (f : Word → Word → Word) (rd : RegIdx) (w : Word) (csr : BitVec 12)
    (hcsr : isCsr i = true) (hdest : destOf i = some rd) (h : ∀ s, exec i s = csrOp f (fun _ => w) rd csr s) : Shape i := by
  refine .calls rd (csrAddr csr) (fun _ v => f v w) hcsr hdest (fun s => ?_) fun _ => rfl
  rw [h, csrOp_eq, writeAndRead_fst_const]

/-- Every instruction has one of the shapes. -/
theorem shape (i : Instr) : Shape i := by
  cases i
  case lb | lh | lbu | lhu | sb | sh | fence | ecall => exact .nops fun _ => rfl
  case ebreak => exact .halts fun _ => rfl
  case lw rd rs1 imm => exact .loads rd rs1 imm rfl
  case sw rs1 rs2 imm => exact .stores rs1 rs2 imm rfl
  case jal rd imm => exact .jumps rd _ _ rfl (fun s => execJal_eq s rd imm) (fun _ => rfl) fun _ => rfl
  case jalr rd rs1 funct3 imm =>
    refine .jumps rd (fun s => s.pc + 4) (fun s => ((s.operandAfterLink rd rs1 (s.pc + 4) + s.pc) &&& (0xFFFFFFFE : Word)) + 1)
      rfl (fun s => ?_) (fun _ => rfl) fun _ => rfl
    rw [← writeAndRead_fst_eq_operandAfterLink]
    exact execJalr_eq s rd rs1 funct3 imm
  case beq | bne | blt | bge | bltu | bgeu => exact .branches _ _ (fun _ => rfl) fun _ => rfl
  case slli | srli | srai => exact .shifts _ _ _ rfl (fun _ => rfl) fun _ => rfl
  case csrrw rd rs1 csr => exact shape_csr_register csrOverwrite rd rs1 csr rfl rfl fun _ => rfl
  case csrrs rd rs1 csr => exact shape_csr_register csrSetBits rd rs1 csr rfl rfl fun _ => rfl
  case csrrc rd rs1 csr => exact shape_csr_register csrClearBits rd rs1 csr rfl rfl fun _ => rfl
  case csrrwi rd uimm csr => exact shape_csr_literal csrOverwrite rd (zext uimm) csr rfl rfl fun _ => rfl
  case csrrsi rd uimm csr => exact shape_csr_literal csrSetBits rd (zext uimm) csr rfl rfl fun _ => rfl
  case csrrci rd uimm csr => exact shape_csr_literal csrClearBits rd (zext uimm) csr rfl rfl fun _ => rfl
  all_goals exact .writes _ _ rfl (fun _ => rfl) fun _ => rfl

/-! ## Registers (R25) -/

/-- Settles O53: by the instruction's shape; what it writes is its destination. -/
theorem onlyDestinationWritten : Obligations.OnlyDestinationWritten := by
  intro i s t r hexec hdest
  have hother : ∀ {rd}, destOf i = some rd → ∀ (u : State) (v : Word), (u.writeReg rd v).readReg r = u.readReg r :=
    fun hrd u v => readReg_writeReg_ne u v fun hr => hdest (hr ▸ hrd)
  cases shape i with
  | nops h => rw [h] at hexec; cases hexec; rfl
  | halts h => rw [h] at hexec; cases hexec; rfl
  | writes rd v hrd h _ => rw [h] at hexec; cases hexec; exact hother hrd s _
  | shifts inst rd v hrd h _ =>
    rw [h, shiftByMode_eq] at hexec
    split at hexec <;> cases hexec <;> simp [hother hrd]
  | jumps rd v p hrd h _ _ => rw [h] at hexec; cases hexec; exact hother hrd s _
  | branches taken imm h _ => rw [h, branch_eq] at hexec; cases hexec; rfl
  | loads rd rs1 imm h =>
    subst h
    rw [exec, execLw_eq] at hexec
    split at hexec <;> cases hexec
    · exact hother rfl s _
    · rfl
  | stores rs1 rs2 imm h =>
    subst h
    rw [exec, execSw_eq] at hexec
    split at hexec <;> cases hexec <;> rfl
  | calls rd a new _ hrd h _ => rw [h] at hexec; cases hexec; exact hother hrd (s.csrRead a) _

/-! ## The log and the Controller port (R41, R92, R205) -/

/-- An instruction leaves the port, and the log but for a diagnostic event; or it is a CSR instruction and records its two
calls. -/
theorem exec_log {i : Instr} {s t : State} (hexec : exec i s = .next t) :
    (t.controller = s.controller ∧ (t.log = s.log ∨ ∃ e, e.isCall = false ∧ t.log = (s.event e).log)) ∨
      isCsr i = true ∧ ∃ a v w, t.log = s.log ++ [.readCSR a v, .writeCSR a w] := by
  cases shape i with
  | nops h => rw [h] at hexec; cases hexec; exact .inl ⟨rfl, .inl rfl⟩
  | halts h => rw [h] at hexec; cases hexec; exact .inl ⟨rfl, .inl rfl⟩
  | writes rd v _ h _ => rw [h] at hexec; cases hexec; exact .inl ⟨by simp, .inl (by simp)⟩
  | shifts inst rd v _ h _ =>
    rw [h, shiftByMode_eq] at hexec
    split at hexec <;> cases hexec
    · exact .inl ⟨by simp, .inr ⟨_, rfl, rfl⟩⟩
    · exact .inl ⟨by simp, .inr ⟨.unrecognizedSubOp s.pc inst, rfl, by simp⟩⟩
    · exact .inl ⟨by simp, .inl (by simp)⟩
  | jumps rd v p _ h _ _ => rw [h] at hexec; cases hexec; exact .inl ⟨by simp, .inl (by simp)⟩
  | branches taken imm h _ => rw [h, branch_eq] at hexec; cases hexec; exact .inl ⟨rfl, .inl rfl⟩
  | loads rd rs1 imm h =>
    subst h
    rw [exec, execLw_eq] at hexec
    split at hexec <;> cases hexec <;> exact .inl ⟨by simp, .inl (by simp)⟩
  | stores rs1 rs2 imm h =>
    subst h
    rw [exec, execSw_eq] at hexec
    split at hexec <;> cases hexec <;> exact .inl ⟨rfl, .inl rfl⟩
  | calls rd a new hcsr _ h _ =>
    rw [h] at hexec
    cases hexec
    exact .inr ⟨hcsr, a, s.csrAnswer a, new s (s.csrAnswer a), by simp⟩

/-- An unrecognized word records a diagnostic event and no call. -/
theorem execUnrecognized_log {u : Unrecognized} {inst : Word} {s t : State} (h : execUnrecognized u inst s = .next t) :
    ∃ e, e.isCall = false ∧ t.log = (s.event e).log := by
  cases u with
  | opcode => cases h; exact ⟨_, rfl, rfl⟩
  | branchSubOp | loadSubOp | storeSubOp | systemSubOp => cases h; exact ⟨_, rfl, rfl⟩
  | opPair rd => cases h; exact ⟨.unrecognizedSubOp s.pc inst, rfl, by simp⟩
  | shiftImm rd =>
    rw [execUnrecognized_shiftImm] at h
    split at h <;> cases h
    · exact ⟨.unrecognizedSubOp s.pc inst, rfl, by simp⟩
    · exact ⟨_, rfl, rfl⟩

/-- Settles O39: a diagnostic event is no Controller call. -/
theorem onlyCsrCallsController : Obligations.OnlyCsrCallsController := by
  intro i s t hcsr hexec
  rcases exec_log hexec with ⟨hport, hlog⟩ | ⟨hcall, _⟩
  · refine ⟨hport, ?_⟩
    rcases hlog with hlog | ⟨e, he, hlog⟩
    · rw [hlog]
    · rw [hlog, event_log_calls s he]
  · rw [hcsr] at hcall
    cases hcall

end Sys2Proof.Machine

/-! Proofs about every step (spec/60_exceptions.md, spec/70_reset_and_hazards.md): its cases, the invariant, the faults, the
lifecycle, the pc, memory and the log. -/

namespace Sys2Proof.Machine

variable {s t : State}

/-! ## The cases of a step (R83) -/

/-- A running machine whose pc is outside memory takes OutOfBounds(pc). -/
theorem step_of_outside (hrun : s.run = .running) (hout : s.inRange s.pc = false) :
    step s = .next { s with run := .faulted (.outOfBounds s.pc) } := by
  simp only [step, hrun, State.fetch, memRead_of_outside s _ hout, raise_eq]

/-- Settles O12: the fetch reads outside memory, and nothing comes before it. -/
theorem fetchOutsideMemoryFaults : Obligations.FetchOutsideMemoryFaults := fun s hrun hout =>
  step_of_outside hrun (Bool.eq_false_iff.mpr (mt (inRange_iff s s.pc).mp hout))

/-- Settles O13: the step looks at the lifecycle state first. -/
theorem noStepUnlessRunning : Obligations.NoStepUnlessRunning := fun s =>
  ⟨fun h => by simp only [step, h], fun h => by simp only [step, h], fun r h => by simp only [step, h]⟩

/-- A step that answers a next state took the fetch fault, or ran an instruction, or ran an unrecognized word. -/
theorem step_inversion (h : step s = .next t) :
    s.inRange s.pc = false ∧ t = { s with run := .faulted (.outOfBounds s.pc) } ∨
      (∃ inst i, s.About inst ∧ decode inst = .ok i ∧ exec i s = .next t) ∨
      ∃ inst u, s.About inst ∧ decode inst = .error u ∧ execUnrecognized u inst s = .next t := by
  obtain ⟨_, hfault | ⟨inst, ha, hword⟩⟩ := step_cases h
  · exact .inl hfault
  · rw [executeWord] at hword
    split at hword
    · next i hd => exact .inr (.inl ⟨inst, i, ha, hd, hword⟩)
    · next u hd => exact .inr (.inr ⟨inst, u, ha, hd, hword⟩)

/-- Settles O14: outside memory the fetch faults; inside, every word answers a next state (R87), with an effect that says how it
runs on. -/
theorem runningAlwaysSteps : Obligations.RunningAlwaysSteps := by
  intro s hrun
  cases hin : s.inRange s.pc
  · exact ⟨_, step_of_outside hrun hin, .inr (.inr ⟨_, rfl⟩)⟩
  · obtain ⟨t, hnext, _, _, _, hcases⟩ := executeWord_effect _ s
    refine ⟨t, (step_of_about ⟨hrun, hin, rfl⟩).trans hnext, ?_⟩
    rcases hcases with h | h | ⟨a, _, h⟩
    · exact .inl (h.trans hrun)
    · exact .inr (.inl h)
    · exact .inr (.inr ⟨a, by rw [h]⟩)

/-! ## The invariant -/

/-- Whether a fault is one depends on the lifecycle state and MEM_WORDS only. -/
theorem faultTrue_congr (hrun : t.run = s.run) (hcfg : t.cfg = s.cfg) : t.faultTrue = s.faultTrue := by
  simp only [State.faultTrue, hrun, inRange_congr (congrArg Config.memWords hcfg)]

/-- What an instruction, an unrecognized word or a fetch can do keeps the invariant. -/
theorem inv_of_effect (heffect : Effect s t) (hinv : s.Inv) : t.Inv := by
  obtain ⟨hcfg, _, hmem, hrun⟩ := heffect
  obtain ⟨hwf, hinside, hwords, hfault⟩ := hinv
  have hmem' : Memory.wf t.mem ∧ t.memInside := by
    rw [State.memInside, hcfg]
    rcases hmem with h | ⟨a, v, hin, h⟩ <;> rw [h]
    · exact ⟨hwf, hinside⟩
    · exact ⟨memWriteWord_wf hwf _ v, memWriteWord_inside v hinside (index_lt_of_inRange hin)⟩
  have hfault' : t.faultTrue = true := by
    rcases hrun with h | h | ⟨a, hout, h⟩
    · rw [faultTrue_congr h hcfg, hfault]
    · simp only [State.faultTrue, h]
    · subst h
      exact congrArg (!·) hout
  exact ⟨hmem'.1, hmem'.2, by rw [hcfg, hwords], hfault'⟩

/-- Settles O49: a step has no other effect. -/
theorem stepKeepsInvariant : Obligations.StepKeepsInvariant := fun _ _ hinv h => inv_of_effect (step_effect h) hinv

/-- Settles O50, by evaluation of the fixed state. -/
theorem resetMeetsInvariant : Obligations.ResetMeetsInvariant := by unfold Obligations.ResetMeetsInvariant; decide

/-! ## Memory (R59, R61) -/

/-- Settles O54: an SW in range is the only way a step changes memory, and it replaces one word. -/
theorem onlyStoreChangesMemory : Obligations.OnlyStoreChangesMemory := by
  intro s t hwf h
  rcases step_inversion h with ⟨_, rfl⟩ | ⟨inst, i, ha, hd, hexec⟩ | ⟨inst, u, _, _, hexec⟩
  · exact .inl fun _ => rfl
  · rcases exec_cases hexec with ⟨_, _, _, _, _, rfl⟩ | ⟨_, _, hmem | ⟨rs1, rs2, imm, rfl, hin, hmem⟩⟩
    · exact .inl fun _ => rfl
    · exact .inl fun b => by rw [hmem]
    · exact .inr ⟨inst, rs1, rs2, imm, ha, hd, hin, fun b hb => by rw [hmem, memReadByte_memWriteWord_outside hwf _ hb]⟩
  · obtain ⟨_, _, hmem⟩ := execUnrecognized_cases hexec
    exact .inl fun b => by rw [hmem]

/-! ## The lifecycle (R221 to R224) -/

/-- Settles O55: only EBREAK's completion halts, and the word at the pc is the one word a step can execute. -/
theorem onlyEbreakHalts : Obligations.OnlyEbreakHalts := by
  intro s t h
  have hrun := (step_cases h).1
  rcases step_inversion h with ⟨hout, rfl⟩ | ⟨inst, i, ha, hd, hexec⟩ | ⟨inst, u, ha, hd, hexec⟩
  · refine ⟨fun hhalt => (by cases hhalt), fun ⟨_, _, _, ⟨_, hin, _⟩, _⟩ => ?_⟩
    rw [hout] at hin
    cases hin
  · have hebreak : (∃ inst rd rs1, s.About inst ∧ decode inst = .ok (.ebreak rd rs1)) ↔ ∃ rd rs1, i = .ebreak rd rs1 := by
      refine ⟨fun ⟨w, rd, rs1, hw, hdw⟩ => ⟨rd, rs1, ?_⟩, fun ⟨rd, rs1, hi⟩ => ⟨inst, rd, rs1, ha, hi ▸ hd⟩⟩
      rw [about_unique hw ha, hd] at hdw
      exact Except.ok.inj hdw
    rw [hebreak]
    rcases exec_cases hexec with ⟨r, rs1, imm, hi, _, rfl⟩ | ⟨hend, _⟩
    · rcases hi with rfl | rfl <;> simp
    · rw [hend, hrun]
      split <;> simp_all
  · refine ⟨fun hhalt => ?_, fun ⟨w, rd, rs1, hw, hdw⟩ => ?_⟩
    · rw [(execUnrecognized_cases hexec).1, hrun] at hhalt
      cases hhalt
    · rw [about_unique hw ha, hd] at hdw
      cases hdw

/-- Settles O56: a step faults at the fetch, or as the LW or SW it executes; a completed instruction is Running or Halted. -/
theorem faultsArePrecise : Obligations.FaultsArePrecise := by
  intro s t reason h hfault
  have hrun := (step_cases h).1
  rcases step_inversion h with ⟨hout, rfl⟩ | ⟨inst, i, ha, hd, hexec⟩ | ⟨inst, u, _, _, hexec⟩
  · cases hfault
    exact ⟨s.pc, rfl, hout, rfl, .inl rfl⟩
  · rcases exec_cases hexec with ⟨r, rs1, imm, hi, hout, rfl⟩ | ⟨hend, _⟩
    · cases hfault
      refine ⟨_, rfl, hout, rfl, .inr ⟨inst, ha, r, rs1, imm, rfl, ?_⟩⟩
      exact hi.imp (fun e => by rw [hd, e]) (fun e => by rw [hd, e])
    · rw [hend, hrun] at hfault
      split at hfault <;> cases hfault
  · rw [(execUnrecognized_cases hexec).1, hrun] at hfault
    cases hfault

/-! ## The pc (R27) -/

/-- Settles O57: an instruction that completes and is no jump or branch goes on to the next word, and so does an unrecognized
word. -/
theorem pcAdvancesByOne : Obligations.PcAdvancesByOne := by
  intro s t inst ha h hstop hnot
  rw [step_of_about ha, executeWord] at h
  split at h
  · next i hd =>
    rcases exec_cases h with ⟨_, _, _, _, _, rfl⟩ | ⟨_, hpc, _⟩
    · cases hstop
    · exact hpc (hnot i hd)
  · exact (execUnrecognized_cases h).2.1

/-! ## The log (R41, R92) -/

/-- An event recorded in STRICT_MODE only is at most one event more, and none otherwise. -/
theorem log_grows_of_event {e : Event} (h : t.log = (s.event e).log) :
    ∃ es, t.log = s.log ++ es ∧ es.length ≤ 2 ∧ (s.cfg.strictMode = false → ∀ e ∈ es, e.isCall = true) := by
  rw [event_log] at h
  refine ⟨_, h, by split <;> simp, fun hquiet => by simp [hquiet]⟩

/-- Settles O58: by what the executed word records. -/
theorem logOnlyGrows : Obligations.LogOnlyGrows := by
  intro s t h
  rcases step_inversion h with ⟨_, rfl⟩ | ⟨inst, i, _, _, hexec⟩ | ⟨inst, u, _, _, hexec⟩
  · exact ⟨[], by simp, by simp, by simp⟩
  · rcases exec_log hexec with ⟨_, hlog | ⟨e, _, hlog⟩⟩ | ⟨_, a, v, w, hlog⟩
    · exact ⟨[], by simp [hlog], by simp, by simp⟩
    · exact log_grows_of_event hlog
    · exact ⟨_, hlog, by simp, fun _ => by simp [Event.isCall]⟩
  · obtain ⟨e, _, hlog⟩ := execUnrecognized_log hexec
    exact log_grows_of_event hlog

end Sys2Proof.Machine

/-! The proof that STRICT_MODE changes nothing but the log (spec/30_encoding.md R92): every operation commutes with switching the
mode off and dropping the diagnostic events. -/

namespace Sys2Proof.Machine

/-! ## The operations -/

section
variable (s : State) (r : RegIdx) (v a p : Word) (e : Event)

theorem quiet_setPc : (s.setPc p).quiet = s.quiet.setPc p := rfl

theorem quiet_advance : s.advance.quiet = s.quiet.advance := rfl

theorem quiet_writeReg : (s.writeReg r v).quiet = s.quiet.writeReg r v := by
  unfold State.writeReg; split <;> rfl

/-- A recorded event that is no diagnostic one stays in the log. -/
theorem quiet_record (h : e.isCall = true) : (s.record e).quiet = s.quiet.record e := by
  simp [State.quiet, State.record, h]

/-- With STRICT_MODE off no event is recorded. -/
theorem quiet_event_eq : s.quiet.event e = s.quiet := rfl

/-- A diagnostic event is dropped. -/
theorem quiet_event (hcall : e.isCall = false) (hwarning : e ≠ .imageTruncated) : (s.event e).quiet = s.quiet.event e := by
  rw [quiet_event_eq]
  unfold State.event
  split
  · simp [State.quiet, State.record, hcall, hwarning]
  · rfl

/-- The Controller's answer depends on the calls of the log only. -/
theorem csrAnswer_quiet : s.quiet.csrAnswer a = s.csrAnswer a := by
  have hcalls : s.quiet.log.filter Event.isCall = s.log.filter Event.isCall := by
    simp only [State.quiet, List.filter_filter]
    congr 1
    funext e
    cases e.isCall <;> rfl
  unfold State.csrAnswer
  rw [hcalls]
  rfl

theorem quiet_csrRead : (s.csrRead a).quiet = s.quiet.csrRead a := by
  unfold State.csrRead
  rw [quiet_record _ _ rfl, csrAnswer_quiet]
  rfl

theorem quiet_csrWrite : (s.csrWrite a v).quiet = s.quiet.csrWrite a v := quiet_record s _ rfl

end

/-! ## Instructions, unrecognized words, and the step -/

variable {s t : State}

/-- An instruction in the quiet machine is the instruction, made quiet: by its shape, which reads neither the log nor
STRICT_MODE. -/
theorem exec_quiet {i : Instr} (hexec : exec i s = .next t) : exec i s.quiet = .next t.quiet := by
  cases shape i with
  | nops h => rw [h] at hexec; cases hexec; exact h s.quiet
  | halts h => rw [h] at hexec; cases hexec; exact h s.quiet
  | writes rd v _ h hv =>
    rw [h] at hexec
    cases hexec
    rw [h, hv, writeResult_eq, quiet_advance, quiet_writeReg]
  | shifts inst rd v _ h hv =>
    rw [h, shiftByMode_eq] at hexec
    rw [h, hv, shiftByMode_eq, show s.quiet.cfg.shiftMode = s.cfg.shiftMode from rfl]
    split at hexec <;> cases hexec
    · rw [quiet_advance, quiet_event _ _ rfl (by simp)]
      rfl
    · rw [quiet_advance, quiet_writeReg, quiet_event _ _ rfl (by simp)]
      rfl
    · rw [quiet_advance, quiet_writeReg]
  | jumps rd v p _ h hv hp =>
    rw [h] at hexec
    cases hexec
    rw [h, hv, hp, quiet_setPc, quiet_writeReg]
  | branches taken imm h htaken =>
    rw [h, branch_eq] at hexec
    cases hexec
    rw [h, htaken, branch_eq]
    rfl
  | loads rd rs1 imm h =>
    subst h
    rw [exec, execLw_eq] at hexec ⊢
    rw [show s.quiet.inRange (s.quiet.effAddr rs1 imm) = s.inRange (s.effAddr rs1 imm) from rfl]
    split at hexec
    · next hin => cases hexec; rw [if_pos hin, quiet_advance, quiet_writeReg]; rfl
    · next hout => cases hexec; rw [if_neg hout]; rfl
  | stores rs1 rs2 imm h =>
    subst h
    rw [exec, execSw_eq] at hexec ⊢
    rw [show s.quiet.inRange (s.quiet.effAddr rs1 imm) = s.inRange (s.effAddr rs1 imm) from rfl]
    split at hexec
    · next hin => cases hexec; rw [if_pos hin]; rfl
    · next hout => cases hexec; rw [if_neg hout]; rfl
  | calls rd a new _ _ h hnew =>
    rw [h] at hexec
    cases hexec
    rw [h, hnew, csrAnswer_quiet, quiet_advance, quiet_csrWrite, quiet_writeReg, quiet_csrRead]

/-- The two meanings of unrecognized words with an event, in the quiet machine. -/
theorem unknownSubOp_quiet (inst : Word) (s : State) :
    unknownSubOp inst s.quiet = .next (s.event (.unrecognizedSubOp s.pc inst)).advance.quiet := by
  rw [quiet_advance, quiet_event _ _ rfl (by simp)]
  rfl

theorem unknownWritesZero_quiet (inst : Word) (rd : RegIdx) (s : State) :
    unknownWritesZero inst rd s.quiet = .next ((s.event (.unrecognizedSubOp s.pc inst)).writeReg rd 0).advance.quiet := by
  rw [quiet_advance, quiet_writeReg, quiet_event _ _ rfl (by simp)]
  rfl

theorem execUnrecognized_quiet {u : Unrecognized} {inst : Word} (h : execUnrecognized u inst s = .next t) :
    execUnrecognized u inst s.quiet = .next t.quiet := by
  cases u with
  | opcode =>
    cases h
    rw [quiet_advance, quiet_event _ _ rfl (by simp)]
    rfl
  | branchSubOp | loadSubOp | storeSubOp | systemSubOp => cases h; exact unknownSubOp_quiet inst s
  | opPair rd => cases h; exact unknownWritesZero_quiet inst rd s
  | shiftImm rd =>
    rw [execUnrecognized_shiftImm] at h ⊢
    rw [show s.quiet.cfg.shiftMode = s.cfg.shiftMode from rfl]
    split at h
    · next hzero => cases h; rw [if_pos hzero]; exact unknownWritesZero_quiet inst rd s
    · next hother => cases h; rw [if_neg hother]; exact unknownSubOp_quiet inst s

/-- The quiet machine fetches the same word. -/
theorem about_quiet {inst : Word} (h : s.About inst) : s.quiet.About inst := h

/-- Settles O59: a step faults at the fetch, or runs the word at the pc, alike in the quiet machine. -/
theorem strictModeOnlyLogs : Obligations.StrictModeOnlyLogs := by
  intro s t h
  have hrun := (step_cases h).1
  rcases step_inversion h with ⟨hout, rfl⟩ | ⟨inst, i, ha, hd, hexec⟩ | ⟨inst, u, ha, hd, hexec⟩
  · exact step_of_outside (s := s.quiet) hrun hout
  · rw [step_of_decode_ok (about_quiet ha) hd, exec_quiet hexec]
  · rw [step_of_decode_error (about_quiet ha) hd, execUnrecognized_quiet hexec]

end Sys2Proof.Machine

/-! Proofs about memory over time (spec/20_memory.md), and about reset, construction and the driver port
(spec/70_reset_and_hazards.md). -/

namespace Sys2Proof.Machine

/-! ## Sequences of word writes (R63) -/

/-- The word writes of a sequence, carried out in its order. -/
def memWriteWords (m : Memory) (ws : List (Nat × Word)) : Memory := ws.foldl (fun n w => memWriteWord n w.1 w.2) m

/-- The value the sequence writes to word `i` last, if it writes that word at all. -/
def lastStored (ws : List (Nat × Word)) (i : Nat) : Option Word := ((ws.filter fun w => w.1 = i).getLast?).map Prod.snd

/-- One more write at the end of the sequence is carried out last. -/
theorem memWriteWords_concat (m : Memory) (ws : List (Nat × Word)) (w : Nat × Word) :
    memWriteWords m (ws ++ [w]) = memWriteWord (memWriteWords m ws) w.1 w.2 :=
  List.foldl_concat ..

/-- One more write at the end of the sequence decides its own word and no other. -/
theorem lastStored_concat (ws : List (Nat × Word)) (w : Nat × Word) (i : Nat) :
    lastStored (ws ++ [w]) i = if i = w.1 then some w.2 else lastStored ws i := by
  by_cases h : i = w.1
  · simp [lastStored, h]
  · simp [lastStored, h, Ne.symm h]

/-- A sequence of word writes keeps the canonical form. -/
theorem memWriteWords_wf {m : Memory} (hm : Memory.wf m) (ws : List (Nat × Word)) : Memory.wf (memWriteWords m ws) := by
  induction ws using List.reverseRecOn with
  | nil => exact hm
  | append_singleton ws w ih => rw [memWriteWords_concat]; exact memWriteWord_wf ih w.1 w.2

/-- A word reads the value last written, or its old one. -/
theorem memReadWord_memWriteWords {m : Memory} (hm : Memory.wf m) (ws : List (Nat × Word)) (i : Nat) :
    memReadWord (memWriteWords m ws) i = (lastStored ws i).getD (memReadWord m i) := by
  induction ws using List.reverseRecOn with
  | nil => rfl
  | append_singleton ws w ih =>
    rw [memWriteWords_concat, lastStored_concat, memReadWord_memWriteWord (memWriteWords_wf hm ws), ih]
    split <;> rfl

/-- Settles O41, by induction on the sequence, which grows at its end. -/
theorem memoryReadsLastWrite : Obligations.MemoryReadsLastWrite := fun ws _ i hm =>
  ⟨memWriteWords_wf hm ws, memReadWord_memWriteWords hm ws i⟩

/-! ## A store and the next fetch (R66) -/

/-- The fetch after StartAtPC(p) is the memory word at p, where p is in range (R83). -/
theorem fetch_startAtPC (p : Word) (s : State) :
    (startAtPC p s).fetch = if s.inRange p then some (memReadWord s.mem p.toInt.toNat) else none := rfl

/-- Two different indices in range name two different words. -/
theorem index_ne_of_ne {s : State} {p a : Word} (hp : s.inRange p = true) (ha : s.inRange a = true) (hne : p ≠ a) :
    p.toInt.toNat ≠ a.toInt.toNat := by
  obtain ⟨hp0, _⟩ := (inRange_iff s p).mp hp
  obtain ⟨ha0, _⟩ := (inRange_iff s a).mp ha
  exact fun h => hne (BitVec.eq_of_toInt_eq (by omega))

/-- Settles O42: a store that goes on running was in range, and replaced one word. -/
theorem storeSeenByFetch : Obligations.StoreSeenByFetch := by
  intro rs1 rs2 imm s t ⟨hwf, _⟩ _ hexec hrun
  rw [exec, execSw_eq] at hexec
  split at hexec <;> cases hexec
  case isFalse => cases hrun
  case isTrue ha =>
    have hrange : ∀ (m : Memory) p, (State.advance { s with mem := m }).inRange p = s.inRange p := fun _ _ => rfl
    refine ⟨?_, fun p hp => ?_⟩
    · rw [fetch_startAtPC, hrange, if_pos ha, advance_mem, memReadWord_memWriteWord hwf, if_pos rfl]
    · rw [fetch_startAtPC, fetch_startAtPC, hrange, advance_mem, memReadWord_memWriteWord hwf]
      split
      · next hin => rw [if_neg (index_ne_of_ne hin ha hp)]
      · rfl

/-! ## Reset and the driver port (R254 to R257) -/

/-- Every register of the machine after construction reads 0 (D2). -/
theorem initial_readReg (cfg : Config) (c : Controller) (r : RegIdx) : (State.initial cfg c).readReg r = 0 := by
  unfold State.readReg
  split
  · rfl
  · simp [State.initial]

/-- Settles O43: the registers by their construction, the rest by evaluation. -/
theorem resetLeaves : Obligations.ResetLeaves :=
  ⟨initial_readReg _ _, rfl, fun _ => (by decide : assembleWord 0 0 0 0 = 0), rfl, rfl, rfl⟩

/-- Settles O47: StartAtPC assigns the pc and the lifecycle state only. -/
theorem startAtPCStarts : Obligations.StartAtPCStarts := fun p s =>
  ⟨startAtPC_pc s p, startAtPC_run s p, readReg_congr (startAtPC_regs s p), fun _ => by rw [startAtPC_mem],
    startAtPC_log s p, startAtPC_cfg s p, startAtPC_controller s p⟩

/-! ## The image in memory (R57, R253) -/

section
variable {cfg : Config} {c : Controller} {image : List Byte}

/-- A byte of the constructed machine is the image's where the MEM_WORDS words reach, and 0 elsewhere (D3). -/
theorem constructed_byte (k : Nat) :
    memReadByte (constructed cfg c image).mem k = if k < 4 * cfg.memWords then image.getD k 0 else 0 := by
  have h := memReadByte_imageCells 0 k (image.take (4 * cfg.memWords))
  rw [Nat.zero_add] at h
  rw [constructed, h]
  simp only [List.getD_eq_getElem?_getD, List.getElem?_take]
  split <;> rfl

/-- The little-endian word of four bytes as a number (R57). -/
theorem assembleWord_eq_ofNat (b0 b1 b2 b3 : Byte) :
    assembleWord b0 b1 b2 b3 =
      BitVec.ofNat 32 (b0.toNat + 256 * b1.toNat + 65536 * b2.toNat + 16777216 * b3.toNat) := by
  have h0 := b0.isLt
  have h1 := b1.isLt
  have h2 := b2.isLt
  apply BitVec.eq_of_toNat_eq
  rw [assembleWord, BitVec.toNat_append, BitVec.toNat_append, BitVec.toNat_append, BitVec.toNat_ofNat,
    ← Nat.shiftLeft_add_eq_or_of_lt h2, ← Nat.shiftLeft_add_eq_or_of_lt h1, ← Nat.shiftLeft_add_eq_or_of_lt h0]
  omega

/-- A word of the constructed machine is the image's word, little-endian, as far as the image and MEM_WORDS reach. -/
theorem constructed_word (hwhole : image.length % 4 = 0) (i : Nat) :
    memReadWord (constructed cfg c image).mem i =
      if i < min (image.length / 4) cfg.memWords then
        BitVec.ofNat 32 ((image.getD (4 * i) 0).toNat + 256 * (image.getD (4 * i + 1) 0).toNat +
          65536 * (image.getD (4 * i + 2) 0).toNat + 16777216 * (image.getD (4 * i + 3) 0).toNat)
      else 0 := by
  simp only [memReadWord, constructed_byte]
  by_cases h : i < min (image.length / 4) cfg.memWords
  · rw [if_pos h, if_pos (by omega), if_pos (by omega), if_pos (by omega), if_pos (by omega), assembleWord_eq_ofNat]
  · have hzero : ∀ k, 4 * i ≤ k → (if k < 4 * cfg.memWords then image.getD k 0 else 0) = 0 := by
      intro k hk
      split
      · exact List.getD_eq_default _ _ (by omega)
      · rfl
    rw [if_neg h, hzero (4 * i) (by omega), hzero (4 * i + 1) (by omega), hzero (4 * i + 2) (by omega),
      hzero (4 * i + 3) (by omega)]
    rfl

/-- Settles O45: an image of whole words is accepted, and its words stand in memory. -/
theorem constructLoadsImage : Obligations.ConstructLoadsImage := fun cfg c _ hwhole =>
  ⟨_, construct_of_whole_words hwhole, rfl, rfl, rfl, rfl, initial_readReg cfg c, constructed_word hwhole⟩

/-- A constructed machine with at least one memory word meets the invariant. -/
theorem constructed_inv (hcfg : cfg.wf = true) : (constructed cfg c image).Inv := by
  refine ⟨imageCells_wf 0 _, fun cell hcell => ?_, hcfg, rfl⟩
  have hlt : cell.1 < 0 + (image.take (4 * cfg.memWords)).length := (mem_imageCells hcell).2.1
  have hlength := List.length_take_le (4 * cfg.memWords) image
  exact (by omega : cell.1 < 4 * cfg.memWords)

/-- A machine that construction answers is the constructed one. -/
theorem eq_constructed_of_ok {s : State} (h : construct cfg c image = .ok s) : s = constructed cfg c image := by
  by_cases hwhole : image.length % 4 = 0
  · rw [construct_of_whole_words hwhole] at h
    exact (Except.ok.inj h).symm
  · rw [construct_of_malformed hwhole] at h
    cases h

end

/-- StartAtPC keeps the invariant: it leaves memory and MEM_WORDS, and no fault stands. -/
theorem startAtPC_inv (p : Word) {s : State} (hinv : s.Inv) : (startAtPC p s).Inv := by
  obtain ⟨hwf, hinside, hwords, _⟩ := hinv
  exact ⟨hwf, hinside, hwords, rfl⟩

/-- Settles O51: construction answers no other machine, and StartAtPC leaves what the invariant speaks of. -/
theorem driverPortMeetsInvariant : Obligations.DriverPortMeetsInvariant :=
  ⟨fun _ _ _ _ hcfg h => eq_constructed_of_ok h ▸ constructed_inv hcfg, fun p _ hinv => startAtPC_inv p hinv⟩

end Sys2Proof.Machine

namespace Sys2Proof

/-- Settles O1, by evaluation of the decoder on the ten words. -/
theorem sampleWordsDecode : Obligations.SampleWordsDecode := by unfold Obligations.SampleWordsDecode; decide

end Sys2Proof
